-- ==== Sys2Proof/Word.lean ====
section
/-! DEFINITION. The word types of the engine (spec 00_scope.md R5, R8). -/

namespace Sys2Proof

/-- `u8` (R8). -/
abbrev Byte := BitVec 8

/-- `u32` (R8); its `+`, `-`, `^^^` are the modular operations of R9. -/
abbrev Word := BitVec 32

/-- The 64-bit RandomIndex (R5, R35). -/
abbrev RandomIndex := BitVec 64

/-- An array of exactly 128 words (R5, R32, R33). -/
abbrev Words128 := Vector Word 128

/-- A key-dependent substitution block (R32). -/
abbrev Kdsb := Words128

end Sys2Proof
end

