-- ==== Sys2Proof/Config.lean ====
section
/-! DEFINITION. The OPEN parameters of R6 (no values: opaque), the interface parameters of R7 and the free value of R84. -/

namespace Sys2Proof

/-- The OPEN parameters of R6, as one argument of every function that uses one of them.
A statement about the engine holds for every value of it. -/
structure OpenParams where
  /-- `SBOX_A`, "box A" (R140). -/
  sboxA : Byte → Byte
  /-- `SBOX_B`, "box B" (R140). -/
  sboxB : Byte → Byte
  /-- `MAGIC[0..3]` (R141). -/
  magic : Fin 4 → Word
  /-- `NLFSR_F(b31, b28, b23, b17, b13, b4, b1)` (R147). -/
  nlfsrF : Bool → Bool → Bool → Bool → Bool → Bool → Bool → Bool
  /-- `MIX_AS(counter, ri, K)` (R181). -/
  mixAS : Fin 128 → RandomIndex → Kdsb → Kdsb × RandomIndex
  /-- `RAM_FOLD(x, m, counter, pos, ri)` (R183). -/
  ramFold : Word → Word → Fin 128 → Fin 128 → RandomIndex → Word
  /-- `CM_TAIL(counter, ri, K)` (R188). -/
  cmTail : Fin 128 → RandomIndex → Kdsb → Kdsb × RandomIndex

/-- `SBOX_A` of this engine: not in the source (R6, log 1). -/
opaque Config.sboxA : Byte → Byte

/-- `SBOX_B` of this engine: not in the source (R6, log 1). -/
opaque Config.sboxB : Byte → Byte

/-- `MAGIC` of this engine: not in the source (R6, log 1). -/
opaque Config.magic : Fin 4 → Word

/-- `NLFSR_F` of this engine: not in the source (R6, log 1). -/
opaque Config.nlfsrF : Bool → Bool → Bool → Bool → Bool → Bool → Bool → Bool

/-- `MIX_AS` of this engine: not in the source (R6, log 1). -/
opaque Config.mixAS : Fin 128 → RandomIndex → Kdsb → Kdsb × RandomIndex

/-- `RAM_FOLD` of this engine: not in the source (R6, log 1). -/
opaque Config.ramFold : Word → Word → Fin 128 → Fin 128 → RandomIndex → Word

/-- `CM_TAIL` of this engine: not in the source (R6, log 1). -/
opaque Config.cmTail : Fin 128 → RandomIndex → Kdsb → Kdsb × RandomIndex

/-- The OPEN parameters of this engine. -/
def Config.openParams : OpenParams where
  sboxA := Config.sboxA
  sboxB := Config.sboxB
  magic := Config.magic
  nlfsrF := Config.nlfsrF
  mixAS := Config.mixAS
  ramFold := Config.ramFold
  cmTail := Config.cmTail

/-- The value of the n-th BUF read made while BUSY = 1: "a draw, unconstrained" (R84, log 6). -/
opaque Config.busyRead : Nat → Word

/-- A quarter of `ENGINE_BASE`: the platform's, a multiple of 4, without a default (R7, R70, log 3). -/
opaque Config.engineBaseWords : Nat

/-- `UNKEYED_POLICY` (R7, R317). -/
inductive UnkeyedPolicy where
  | failClosed
  | compatZero
deriving DecidableEq, Repr

/-- `KS_SNAPSHOT_KEYWORD` (R7, R220). -/
inductive SnapshotKeyword where
  | original
  | premixed
deriving DecidableEq, Repr

/-- `KS_SNAPSHOT_TAIL` (R7, R220). -/
inductive SnapshotTail where
  | copyKdsb
  | keepState
deriving DecidableEq, Repr

/-- The configuration parameters of the hardware interface (R7). -/
structure HwConfig where
  /-- `ENGINE_BASE`, the window's bus address (R70). -/
  engineBase : Nat
  /-- `BUF_BYTES` (R72). -/
  bufBytes : Nat
  /-- `UNKEYED_POLICY` (R317). -/
  unkeyedPolicy : UnkeyedPolicy
  /-- `KS_SNAPSHOT_KEYWORD` (R220). -/
  snapshotKeyword : SnapshotKeyword
  /-- `KS_SNAPSHOT_TAIL` (R220). -/
  snapshotTail : SnapshotTail
  /-- `KS_RI_RESET_PER_CHUNK` (R216). -/
  riResetPerChunk : Bool
deriving DecidableEq, Repr

/-- The defaults of R7; `ENGINE_BASE` has none and stays unknown (log 2, log 3). -/
def HwConfig.default : HwConfig where
  engineBase := 4 * Config.engineBaseWords
  bufBytes := 4096
  unkeyedPolicy := .failClosed
  snapshotKeyword := .original
  snapshotTail := .copyKdsb
  riResetPerChunk := false

end Sys2Proof
end

