-- ==== Sys2Proof/Syntax.lean ====
section
/-! DEFINITION. The commands: one constructor per row of spec/opcode_table.json (R112, R113). -/

namespace Sys2Proof

/-- The seven commands of the TWE command set, revision 1. No command has an operand field: CTX is part of the
command and LEN is read from the latch (R114). -/
inductive Instr where
  /-- KEYSCHED.0 (R225). -/
  | keysched0
  /-- KEYSCHED.1 (R225). -/
  | keysched1
  /-- ENCRYPT (R285). -/
  | encrypt
  /-- DECRYPT (R286). -/
  | decrypt
  /-- KEYSTREAM (R255). -/
  | keystream
  /-- ZEROIZE.0 (R230). -/
  | zeroize0
  /-- ZEROIZE.1 (R230). -/
  | zeroize1
deriving DecidableEq, Repr

end Sys2Proof
end

