-- ==== Sys2Proof/WellFormed.lean ====
section
/-! DEFINITION. The fields of a command word, when they are legal (R110, R113), and legal interface parameters (R7). -/

namespace Sys2Proof

/-- The fields of a command word (R110). -/
structure CmdFields where
  /-- OP, bits 3:0. -/
  op : BitVec 4
  /-- CTX, bit 4. -/
  ctx : BitVec 1
  /-- RSVD, bits 31:5. -/
  rsvd : BitVec 27
deriving DecidableEq, Repr

/-- RSVD = 0 (R113). -/
def CmdFields.rsvdZero (f : CmdFields) : Bool := f.rsvd == 0

/-- OP is one of the five opcodes of R112; 0x0 and 0x6 to 0xF are reserved (R115). -/
def CmdFields.opKnown (f : CmdFields) : Bool := 1 ≤ f.op.toNat && f.op.toNat ≤ 5

/-- ENCRYPT and DECRYPT need CTX = 0, KEYSTREAM needs CTX = 1, KEYSCHED and ZEROIZE take either (R113). -/
def CmdFields.ctxAllowed (f : CmdFields) : Bool :=
  if f.op = 2 ∨ f.op = 3 then f.ctx == 0
  else if f.op = 4 then f.ctx == 1
  else true

/-- The word is legal (R113). -/
def CmdFields.legal (f : CmdFields) : Bool := f.rsvdZero && f.opKnown && f.ctxAllowed

/-- The fields R113 and R112 give each command. -/
def Instr.fields : Instr → CmdFields
  | .keysched0 => ⟨1, 0, 0⟩
  | .keysched1 => ⟨1, 1, 0⟩
  | .encrypt => ⟨2, 0, 0⟩
  | .decrypt => ⟨3, 0, 0⟩
  | .keystream => ⟨4, 1, 0⟩
  | .zeroize0 => ⟨5, 0, 0⟩
  | .zeroize1 => ⟨5, 1, 0⟩

/-- A command is well formed when its fields are legal. A command has no operand field, so all seven are. -/
def Instr.wf (i : Instr) : Bool := i.fields.legal

/-- `BUF_BYTES` is a power of two from 512 to 65536 (R7, R72). -/
def HwConfig.bufBytesOk (c : HwConfig) : Bool :=
  [512, 1024, 2048, 4096, 8192, 16384, 32768, 65536].contains c.bufBytes

/-- `ENGINE_BASE` is a multiple of 4 (R70). -/
def HwConfig.engineBaseOk (c : HwConfig) : Bool := c.engineBase % 4 == 0

/-- The interface parameters are legal. -/
def HwConfig.wf (c : HwConfig) : Bool := c.bufBytesOk && c.engineBaseOk

end Sys2Proof
end

