-- ==== Sys2Proof/Decode.lean ====
section
/-! DEFINITION. The decoder of command words (R110 to R116) and, after it, the encoder. -/

namespace Sys2Proof

/-- Why a command word is illegal; each reason ends in ERR_OPCODE (R113, R315). -/
inductive DecodeError where
  /-- A bit of RSVD is set. -/
  | reservedBits
  /-- OP is 0x0 or 0x6 to 0xF. -/
  | reservedOpcode
  /-- The opcode does not allow this CTX. -/
  | contextNotAllowed
deriving DecidableEq, Repr

/-- The fields of a command word (R110). -/
def fieldsOf (w : Word) : CmdFields where
  op := w.extractLsb' 0 4
  ctx := w.extractLsb' 4 1
  rsvd := w.extractLsb' 5 27

/-- The command that latched fields name, or why they name none (R112, R113). -/
def decodeFields (f : CmdFields) : Except DecodeError Instr :=
  if f.rsvd ≠ 0 then .error .reservedBits
  else if f.op = 0x1 then .ok (if f.ctx = 0 then .keysched0 else .keysched1)
  else if f.op = 0x2 then (if f.ctx = 0 then .ok .encrypt else .error .contextNotAllowed)
  else if f.op = 0x3 then (if f.ctx = 0 then .ok .decrypt else .error .contextNotAllowed)
  else if f.op = 0x4 then (if f.ctx = 1 then .ok .keystream else .error .contextNotAllowed)
  else if f.op = 0x5 then .ok (if f.ctx = 0 then .zeroize0 else .zeroize1)
  else .error .reservedOpcode

/-- The command a word names, or why it names none. -/
def decode (w : Word) : Except DecodeError Instr := decodeFields (fieldsOf w)

/-- The command words of the opcode map (R113). -/
def encode : Instr → Word
  | .keysched0 => 0x00000001
  | .keysched1 => 0x00000011
  | .encrypt => 0x00000002
  | .decrypt => 0x00000003
  | .keystream => 0x00000014
  | .zeroize0 => 0x00000005
  | .zeroize1 => 0x00000015

/-- The word of `nbits` bits `w`, every bit above them 0, as the 32-bit word written to CMD. -/
def tableWord (nbits w : Nat) : Word := BitVec.ofNat 32 (w % 2 ^ nbits)

/-- What the decoder reads from a row's word, bits numbered as spec/opcode_table.json numbers them. -/
def decodeTableWord (nbits w : Nat) : Option Instr :=
  match decode (tableWord nbits w) with
  | .ok i => some i
  | .error _ => none

end Sys2Proof
end

