-- ==== Sys2Proof/Machine/State.lean ====
section
/-! DEFINITION. The machine's state as plain data (R45), its reset value (R46, R350), its faults and its refusals. -/

namespace Sys2Proof.Machine

/-- BUF as (buffer address, byte) pairs: addresses strictly rising, no pair holding what an unlisted address reads as. -/
abbrev Memory := List Host.Cell

/-- One of the two contexts (R31). -/
inductive CtxId where
  /-- Context 0, the block cipher's. -/
  | c0
  /-- Context 1, the stream cipher's. -/
  | c1
deriving DecidableEq, Repr

/-- What a context owns (R31). -/
structure Bank where
  /-- `KDSB_c` (R32). -/
  kdsb : Kdsb
  /-- `STATE_c` (R33). -/
  state : Words128
  /-- `KEYED_c` (R34). -/
  keyed : Bool
deriving DecidableEq, Repr

/-- The error codes a command can complete with (R313). -/
inductive ErrCode where
  /-- ERR_OPCODE: the command word is illegal (R315). -/
  | opcode
  /-- ERR_ALIGN: a block length that is no multiple of 8 words (R318). -/
  | align
  /-- ERR_LENGTH: LEN is outside the command's range (R319). -/
  | length
  /-- ERR_UNKEYED: the context is not keyed, under `fail_closed` (R317). -/
  | unkeyed
deriving DecidableEq, Repr

/-- One bus access of the host, at a bus address, `width` bits wide. -/
inductive Access where
  | read (width addr : Nat)
  /-- An 8-bit write carries the low byte of `value` (log 5). -/
  | write (width addr : Nat) (value : Word)
deriving DecidableEq, Repr

/-- One operation of a host program (R117). -/
inductive HostOp where
  /-- `WR32`, `WR8`, `RD32`, `RD8`, and the accesses the engine does not support (R79). -/
  | access (a : Access)
  /-- `WAIT`: read STATUS until BUSY is 0. -/
  | wait
deriving DecidableEq, Repr

/-- The data a host read returned. -/
inductive ReadData where
  | byte (b : Byte)
  | word (w : Word)
deriving DecidableEq, Repr

/-- Which agent moves next (R30, R310, R350). -/
inductive Turn where
  /-- The host does its next operation. -/
  | host
  /-- The engine takes its completion step, if it is busy. -/
  | engine
  /-- The platform's reset input is raised. -/
  | reset
deriving DecidableEq, Repr

/-- Why the machine stops. Every fault is a bus error (R79), which stops the host's program and leaves the engine unchanged:
it ends the run as soon as the engine is idle (log 17). -/
inductive Fault where
  /-- Raised by a host access below `ENGINE_BASE`: no offset of the window, nothing of the engine is addressed. Safe. -/
  | outsideWindow
  /-- Raised by a host access to an unmapped offset of the window (R70). Safe. -/
  | unmappedOffset
  /-- Raised by a register access that is not 32 bits wide and aligned to 4 (R80). Safe. -/
  | registerAccessShape
  /-- Raised by a BUF access that is neither 8 bits wide nor 32 bits wide, aligned and inside BUF (R81). Safe. -/
  | bufAccessShape
deriving DecidableEq, Repr

/-- The whole state: the engine's record (R45), then the agents around it (log 4, log 5). -/
structure State where
  /-- The interface parameters of R7; no step writes them (log 2). -/
  cfg : HwConfig
  /-- Context 0 (R31). -/
  bank0 : Bank
  /-- Context 1 (R31). -/
  bank1 : Bank
  /-- RI (R35). -/
  ri : RandomIndex
  /-- The transient KeyBlocks store (R37, log 9). -/
  keyBlocks : List Word
  /-- The transient chunk store (R37, log 9). -/
  chunk : List Word
  /-- BUF (R72). -/
  buf : Memory
  /-- CMD (R40). -/
  cmd : Word
  /-- LEN (R42). -/
  len : Word
  /-- STATUS.BUSY (R41). -/
  busy : Bool
  /-- STATUS.DONE (R41). -/
  done : Bool
  /-- STATUS.ERR (R41). -/
  err : Bool
  /-- STATUS.ERRCODE (R41). -/
  errcode : BitVec 4
  /-- STATUS.BUSYERR (R41). -/
  busyerr : Bool
  /-- IRQEN.IE (R43). -/
  ie : Bool
  /-- The latch `cur_op` (R44). -/
  curOp : BitVec 4
  /-- The latch `cur_ctx` (R44). -/
  curCtx : BitVec 1
  /-- The latch `cur_rsvd` (R44). -/
  curRsvd : BitVec 27
  /-- The latch `cur_len` (R44). -/
  curLen : Word
  /-- The host operations still to be done, in program order (R85, log 5). -/
  hostProg : List HostOp
  /-- The data the host's reads returned, newest first (log 5). -/
  received : List ReadData
  /-- The bus error that stopped the host's program while the engine was busy, if one did (R79, log 17). -/
  hostStopped : Option Fault
  /-- The agents that move next; when it is empty a busy engine moves, else the host (log 4). -/
  turns : List Turn
  /-- How many free values have been drawn (R84, log 6). -/
  draws : Nat
deriving DecidableEq, Repr

/-- Why a step is refused. -/
inductive Refusal where
  /-- Raised by an arm of the dispatcher whose instruction has no meaning yet: none is left. Safe. -/
  | notModelled (mnemonic : String)
deriving DecidableEq, Repr

/-- A context with nothing in it (R46). -/
def Bank.zero : Bank where
  kdsb := Vector.replicate 128 0
  state := Vector.replicate 128 0
  keyed := false

/-- The state right after reset (R46, R350, R351) of an engine with the given interface parameters, with no host
operation waiting, nothing received, no bus error and no schedule (log 4, log 5, log 6, log 17). -/
def State.resetWith (cfg : HwConfig) : State where
  cfg := cfg
  bank0 := Bank.zero
  bank1 := Bank.zero
  ri := 0
  keyBlocks := []
  chunk := []
  buf := []
  cmd := 0
  len := 0
  busy := false
  done := false
  err := false
  errcode := 0
  busyerr := false
  ie := false
  curOp := 0
  curCtx := 0
  curRsvd := 0
  curLen := 0
  hostProg := []
  received := []
  hostStopped := none
  turns := []
  draws := 0

/-- The state right after reset, with the default interface parameters of R7. -/
def State.reset : State := State.resetWith HwConfig.default

end Sys2Proof.Machine
end

