-- ==== Sys2Proof/Machine/Ops.lean ====
section
/-! DEFINITION. The named operations over BUF, the 128-word arrays and the state, accepting a command (R311), completing
one with or without an error (R312, R314), and the engine's reset (R350). -/

namespace Sys2Proof.Machine

/-! ## BUF (20_memory.md) -/

/-- What a byte of BUF that nothing has written reads as: its reset value (R46, log 8). -/
def Memory.unlisted : Byte := 0

/-- The canonical form above a bound: keys rise strictly from `lo`, no value is the unlisted one. -/
def Memory.wfFrom (lo : Nat) : Memory → Bool
  | [] => true
  | (k, v) :: m => decide (lo ≤ k) && (v != Memory.unlisted) && Memory.wfFrom (k + 1) m

/-- The canonical form of a memory. -/
def Memory.wf (m : Memory) : Bool := Memory.wfFrom 0 m

/-- Every listed address is below `n`. -/
def Memory.below (n : Nat) (m : Memory) : Bool := m.all fun c => decide (c.1 < n)

/-- BUF[a]. -/
def Memory.read : Memory → Nat → Byte
  | [], _ => Memory.unlisted
  | (k, v) :: m, a =>
    if a < k then Memory.unlisted else if a = k then v else Memory.read m a

/-- BUF[a] <- v, keeping the canonical form. -/
def Memory.write : Memory → Nat → Byte → Memory
  | [], a, v => if v = Memory.unlisted then [] else [(a, v)]
  | (k, w) :: m, a, v =>
    if a < k then (if v = Memory.unlisted then (k, w) :: m else (a, v) :: (k, w) :: m)
    else if a = k then (if v = Memory.unlisted then m else (k, v) :: m)
    else (k, w) :: Memory.write m a v

/-- The `n` bytes from `a` on, in rising order of address. -/
def Memory.readBytes (m : Memory) (a n : Nat) : List Byte :=
  (List.range n).map fun i => m.read (a + i)

/-- The bytes, written from `a` on in rising order of address. -/
def Memory.writeBytes (m : Memory) (a : Nat) : List Byte → Memory
  | [] => m
  | b :: bs => Memory.writeBytes (m.write a b) (a + 1) bs

/-- `MemRead(a, 4)`: little-endian, the byte at the lower address is the least significant (R74). -/
def Memory.readWord (m : Memory) (a : Nat) : Word :=
  m.read (a + 3) ++ m.read (a + 2) ++ m.read (a + 1) ++ m.read a

/-- `MemWrite(a, 4, v)`: byte i of `v` goes to address `a + i` (R75). -/
def Memory.writeWord (m : Memory) (a : Nat) (v : Word) : Memory :=
  (((m.write a (v.extractLsb' 0 8)).write (a + 1) (v.extractLsb' 8 8)).write (a + 2)
    (v.extractLsb' 16 8)).write (a + 3) (v.extractLsb' 24 8)

/-! ## 128-word arrays (R11, R12) -/

/-- `K[i]`. -/
def kRead (K : Words128) (i : Fin 128) : Word := K[i.val]

/-- `K[i] <- v`. -/
def kWrite (K : Words128) (i : Fin 128) (v : Word) : Words128 := K.set i.val v

/-- The array whose word `p` is `f p`. -/
def kBuild (f : Fin 128 → Word) : Words128 := Vector.ofFn f

/-- The all-zero array. -/
def kZero : Words128 := Vector.replicate 128 0

/-- `idx(c, k) = (c + 128 + k) % 128` (R11). -/
def idx (c : Fin 128) (k : Int) : Fin 128 := Fin.ofNat 128 ((c.val : Int) + 128 + k).toNat

/-! ## The state -/

/-- Context `c`. -/
def State.bank (s : State) : CtxId → Bank
  | .c0 => s.bank0
  | .c1 => s.bank1

/-- Context `c` replaced. -/
def State.setBank (s : State) (c : CtxId) (b : Bank) : State :=
  match c with
  | .c0 => { s with bank0 := b }
  | .c1 => { s with bank1 := b }

/-- BUF replaced. -/
def State.withBuf (s : State) (m : Memory) : State := { s with buf := m }

/-- The KeyBlocks and chunk stores loaded (R210, R215). -/
def State.withKeyStores (s : State) (kb chunk : List Word) : State := { s with keyBlocks := kb, chunk := chunk }

/-- The KeyBlocks and chunk stores scrubbed (R37, R225): no word is held. -/
def State.scrubKeyStores (s : State) : State := { s with keyBlocks := [], chunk := [] }

/-- The latched fields of the running command (R44). -/
def State.latched (s : State) : CmdFields := ⟨s.curOp, s.curCtx, s.curRsvd⟩

/-! ## The life of a command (R310 to R314) -/

/-- ERRCODE of an error (R313). -/
def ErrCode.bits : ErrCode → BitVec 4
  | .opcode => 1
  | .align => 2
  | .length => 3
  | .unkeyed => 4

/-- Acceptance of the word `w` (R311): CMD and the latches are loaded, DONE, ERR and ERRCODE cleared, BUSY set. -/
def acceptCommand (w : Word) (s : State) : State :=
  { s with
    cmd := w
    curOp := (fieldsOf w).op
    curCtx := (fieldsOf w).ctx
    curRsvd := (fieldsOf w).rsvd
    curLen := s.len
    done := false
    err := false
    errcode := 0
    busy := true }

/-- Completion without an error (R312). -/
def completeOk (s : State) : State :=
  { s with err := false, errcode := 0, ri := 0, busy := false, done := true }

/-- Completion with an error, the engine's exception (R312, R314): only STATUS (and RI <- 0) changes. -/
def completeError (e : ErrCode) (s : State) : State :=
  { s with err := true, errcode := e.bits, ri := 0, busy := false, done := true }

/-- The return from an error and the acknowledgement of a completion (R322, R41): a write of `w` to STATUS clears
DONE, ERR (with ERRCODE) and BUSYERR where `w` has a 1. -/
def clearStatus (w : Word) (s : State) : State :=
  { s with
    done := s.done && !w.getLsbD 1
    err := s.err && !w.getLsbD 2
    errcode := if w.getLsbD 2 then 0 else s.errcode
    busyerr := s.busyerr && !w.getLsbD 10 }

/-- One command: its check, made before anything changes (R314), then its body or the error. -/
def runCommand (check : Option ErrCode) (body : State → State) (s : State) : Host.Outcome State Fault Refusal :=
  match check with
  | some e => .next (completeError e s)
  | none => .next (completeOk (body s))

/-- The engine's reset (R350): every piece of the engine's state takes its value of R46; a running command is
abandoned. The interface parameters and the agents around the engine are not the engine's state (log 13). -/
def resetEngine (s : State) : State :=
  { State.resetWith s.cfg with
    hostProg := s.hostProg
    received := s.received
    hostStopped := s.hostStopped
    turns := s.turns
    draws := s.draws }

end Sys2Proof.Machine
end

