-- ==== Sys2Proof/Machine/Operands.lean ====
section
/-! DEFINITION. Rotations and halves of words (R8, R10), the operands of a command (R114, R77, R78) and the ranges of
LEN, and where a host access lands in the window (R70, R80, R81). -/

namespace Sys2Proof.Machine

/-! ## Bits -/

/-- `rotl(x, n)`, the amount modulo 32 (R10). -/
def rotl (x : Word) (n : Nat) : Word := x <<< (n % 32) ||| x >>> ((32 - n % 32) % 32)

/-- `rotr(x, n)`, the amount modulo 32 (R10). -/
def rotr (x : Word) (n : Nat) : Word := x >>> (n % 32) ||| x <<< ((32 - n % 32) % 32)

/-- `hi32(r) = r[63:32]` (R8). -/
def hi32 (r : RandomIndex) : Word := r.extractLsb' 32 32

/-- `lo32(r) = r[31:0]` (R8). -/
def lo32 (r : RandomIndex) : Word := r.extractLsb' 0 32

/-- `a || b = (a << 32) | b` (R8). -/
def join64 (a b : Word) : RandomIndex := a ++ b

/-- The bits 31:16 of a word, in place: `x & 0xFFFF0000`. -/
def highHalf (x : Word) : Word := x &&& 0xFFFF0000

/-- The bits 15:0 of a word, in place: `x & 0x0000FFFF`. -/
def lowHalf (x : Word) : Word := x &&& 0x0000FFFF

/-! ## LEN (R114): compared as an unsigned natural number -/

/-- The checks of KEYSCHED (R225, R319). -/
def keyCheck (cfg : HwConfig) (len : Nat) : Option ErrCode :=
  if 1 ≤ len ∧ len ≤ cfg.bufBytes then none else some .length

/-- ERR_UNKEYED applies to this context (R317). -/
def unkeyedStop (cfg : HwConfig) (b : Bank) : Bool := cfg.unkeyedPolicy == .failClosed && !b.keyed

/-- The checks of ENCRYPT and DECRYPT, in the order of R316 (R285). -/
def blockCheck (cfg : HwConfig) (b : Bank) (len : Nat) : Option ErrCode :=
  if unkeyedStop cfg b then some .unkeyed
  else if len % 8 ≠ 0 then some .align
  else if cfg.bufBytes / 4 < len then some .length
  else none

/-- The checks of KEYSTREAM, in the order of R316 (R255). -/
def streamCheck (cfg : HwConfig) (b : Bank) (len : Nat) : Option ErrCode :=
  if unkeyedStop cfg b then some .unkeyed
  else if 512 < len ∨ cfg.bufBytes < len then some .length
  else none

/-! ## Data in BUF -/

/-- The eight words A..H of a block (R271, R36). -/
structure Block where
  a : Word
  b : Word
  c : Word
  d : Word
  e : Word
  f : Word
  g : Word
  h : Word
deriving DecidableEq, Repr

/-- The key bytes `BUF[0 .. len-1]` (R78). -/
def readKey (m : Memory) (len : Nat) : List Byte := m.readBytes 0 len

/-- The buffer address of the first byte of block `n` (R77). -/
def blockAddr (n : Nat) : Nat := 32 * n

/-- Block `n` of the data: words 8n .. 8n+7 as A..H (R77). -/
def readBlock (m : Memory) (n : Nat) : Block where
  a := m.readWord (blockAddr n)
  b := m.readWord (blockAddr n + 4)
  c := m.readWord (blockAddr n + 8)
  d := m.readWord (blockAddr n + 12)
  e := m.readWord (blockAddr n + 16)
  f := m.readWord (blockAddr n + 20)
  g := m.readWord (blockAddr n + 24)
  h := m.readWord (blockAddr n + 28)

/-- Block `n` of the data written back at the same place (R77). -/
def writeBlock (m : Memory) (n : Nat) (x : Block) : Memory :=
  (((((((m.writeWord (blockAddr n) x.a).writeWord (blockAddr n + 4) x.b).writeWord (blockAddr n + 8) x.c).writeWord
    (blockAddr n + 12) x.d).writeWord (blockAddr n + 16) x.e).writeWord (blockAddr n + 20) x.f).writeWord
    (blockAddr n + 24) x.g).writeWord (blockAddr n + 28) x.h

/-! ## The window -/

/-- The four host-visible registers (R40 to R43). -/
inductive Reg where
  | cmd
  | len
  | status
  | irqen
deriving DecidableEq, Repr

/-- Where a supported access lands. -/
inductive Target where
  /-- A register, accessed as a whole. -/
  | reg (r : Reg)
  /-- One byte of BUF, at a buffer address. -/
  | bufByte (a : Nat)
  /-- Four bytes of BUF, from a buffer address on. -/
  | bufWord (a : Nat)
deriving DecidableEq, Repr

/-- The window offset of a register (R70). -/
def Reg.offset : Reg → Nat
  | .cmd => 0x000
  | .len => 0x004
  | .status => 0x008
  | .irqen => 0x00C

/-- A register access at a window offset below 0x0010 (R80). -/
def registerTarget (width off : Nat) : Except Fault Target :=
  if width = 32 ∧ off % 4 = 0 then
    .ok (.reg (if off = 0x000 then .cmd else if off = 0x004 then .len else if off = 0x008 then .status else .irqen))
  else .error .registerAccessShape

/-- A BUF access at a buffer address below `BUF_BYTES` (R81). -/
def bufTarget (bufBytes width a : Nat) : Except Fault Target :=
  if width = 8 then .ok (.bufByte a)
  else if width = 32 ∧ a % 4 = 0 ∧ a + 4 ≤ bufBytes then .ok (.bufWord a)
  else .error .bufAccessShape

/-- Where an access of a width at a window offset lands, or the bus error it ends in (R70, R79). -/
def offsetTarget (bufBytes width off : Nat) : Except Fault Target :=
  if off < 0x0010 then registerTarget width off
  else if off < 0x1000 then .error .unmappedOffset
  else if off < 0x1000 + bufBytes then bufTarget bufBytes width (off - 0x1000)
  else .error .unmappedOffset

/-- Where an access of a width at a bus address lands: the window starts at `ENGINE_BASE` (R70, log 3). -/
def busTarget (cfg : HwConfig) (width addr : Nat) : Except Fault Target :=
  if addr < cfg.engineBase then .error .outsideWindow
  else offsetTarget cfg.bufBytes width (addr - cfg.engineBase)

end Sys2Proof.Machine
end

