-- ==== Sys2Proof/Machine/BlockCipher.lean ====
section
/-! DEFINITION. The 62-round block datapath, ENCRYPT and DECRYPT (44_block.md). -/

namespace Sys2Proof.Machine

/-- `K[n]`, the index modulo 128. -/
def kWord (K : Kdsb) (n : Nat) : Word := kRead K (Fin.ofNat 128 n)

/-! ## The parts of a round -/

/-- A tap: `x ^ ((x << n) + 1)` (R272). -/
def tap (x : Word) (n : Nat) : Word := x ^^^ ((x <<< n) + 1)

/-- The tap t, from B (R272). -/
def tapT (x : Block) : Word := tap x.b 1

/-- The tap u, from D (R272). -/
def tapU (x : Block) : Word := tap x.d 2

/-- The tap v, from F (R272). -/
def tapV (x : Block) : Word := tap x.f 3

/-- The tap w, from H (R272). -/
def tapW (x : Block) : Word := tap x.h 4

/-- The substitution lanes of round `j` on A, C, E, G (R273). -/
def lanes (K : Kdsb) (j : Nat) (x : Block) : Block :=
  { x with
    a := rotr (x.a - tapT x) (tapW x).toNat + kWord K (2 * j)
    c := rotr (x.c ^^^ tapU x) (tapV x).toNat + kWord K (2 * j + 1)
    e := rotr (x.e ^^^ tapV x) (tapU x).toNat + kWord K (2 * j + 2)
    g := rotr (x.g + tapW x) (tapT x).toNat + kWord K (2 * j + 3) }

/-- The lanes undone, with the taps of the restored B, D, F, H (R283). -/
def unlanes (K : Kdsb) (j : Nat) (x : Block) : Block :=
  { x with
    a := rotl (x.a - kWord K (2 * j)) (tapW x).toNat + tapT x
    c := rotl (x.c - kWord K (2 * j + 1)) (tapV x).toNat ^^^ tapU x
    e := rotl (x.e - kWord K (2 * j + 2)) (tapU x).toNat ^^^ tapV x
    g := rotl (x.g - kWord K (2 * j + 3)) (tapT x).toNat - tapW x }

/-- The secondary keyed mix of round `j` on B, D, F, H (R274). -/
def keyedMix (K : Kdsb) (j : Nat) (x : Block) : Block :=
  { x with
    b := x.b + kWord K j
    d := x.d ^^^ kWord K (j + 1)
    f := x.f ^^^ kWord K (j + 2)
    h := x.h - kWord K (j + 3) }

/-- The secondary keyed mix undone (R283). -/
def unkeyedMix (K : Kdsb) (j : Nat) (x : Block) : Block :=
  { x with
    b := x.b - kWord K j
    d := x.d ^^^ kWord K (j + 1)
    f := x.f ^^^ kWord K (j + 2)
    h := x.h + kWord K (j + 3) }

/-- The permutation P (R275): the new A is the old E, and so on. -/
def permute (x : Block) : Block := ⟨x.e, x.c, x.h, x.b, x.g, x.a, x.f, x.d⟩

/-- The inverse permutation (R282). -/
def unpermute (x : Block) : Block := ⟨x.f, x.d, x.b, x.h, x.a, x.g, x.e, x.c⟩

/-- The PHT on (A, B), (C, D), (E, F), (G, H) (R276). -/
def pht (x : Block) : Block :=
  ⟨x.a + x.b, x.a + 2 * x.b, x.c + x.d, x.c + 2 * x.d, x.e + x.f, x.e + 2 * x.f, x.g + x.h, x.g + 2 * x.h⟩

/-- The inverse PHT (R281). -/
def unpht (x : Block) : Block :=
  ⟨2 * x.a - x.b, x.b - x.a, 2 * x.c - x.d, x.d - x.c, 2 * x.e - x.f, x.f - x.e, 2 * x.g - x.h, x.h - x.g⟩

/-- The initial whitening (R278). -/
def whitenIn (K : Kdsb) (x : Block) : Block :=
  { x with b := x.b + kWord K 0, d := x.d + kWord K 1, f := x.f + kWord K 2, h := x.h + kWord K 3 }

/-- The initial whitening undone (R284). -/
def unwhitenIn (K : Kdsb) (x : Block) : Block :=
  { x with b := x.b - kWord K 0, d := x.d - kWord K 1, f := x.f - kWord K 2, h := x.h - kWord K 3 }

/-- The final whitening (R279). -/
def whitenOut (K : Kdsb) (x : Block) : Block :=
  { x with a := x.a + kWord K 124, c := x.c + kWord K 125, e := x.e + kWord K 126, g := x.g + kWord K 127 }

/-- The final whitening undone (R284). -/
def unwhitenOut (K : Kdsb) (x : Block) : Block :=
  { x with a := x.a - kWord K 124, c := x.c - kWord K 125, e := x.e - kWord K 126, g := x.g - kWord K 127 }

/-! ## Rounds and blocks -/

/-- Encryption round `j` (R277). -/
def encRound (K : Kdsb) (j : Nat) (x : Block) : Block := pht (permute (keyedMix K j (lanes K j x)))

/-- Decryption round `j` (R283). -/
def decRound (K : Kdsb) (j : Nat) (x : Block) : Block := unlanes K j (unkeyedMix K j (unpermute (unpht x)))

/-- The encryption rounds 1 .. n. -/
def encRounds (K : Kdsb) : Nat → Block → Block
  | 0, x => x
  | n + 1, x => encRound K (n + 1) (encRounds K n x)

/-- The decryption rounds n .. 1. -/
def decRounds (K : Kdsb) : Nat → Block → Block
  | 0, x => x
  | n + 1, x => decRounds K n (decRound K (n + 1) x)

/-- `EncryptBlock` (R280). -/
@[irreducible] def encryptBlock (K : Kdsb) (x : Block) : Block := whitenOut K (encRounds K 62 (whitenIn K x))

/-- `DecryptBlock` (R284). -/
@[irreducible] def decryptBlock (K : Kdsb) (x : Block) : Block := unwhitenIn K (decRounds K 62 (unwhitenOut K x))

/-! ## ENCRYPT and DECRYPT -/

/-- The blocks 0 .. n-1 of BUF, each replaced in place (R271, R285). -/
def mapBlocks (f : Block → Block) : Nat → Memory → Memory
  | 0, m => m
  | n + 1, m =>
    let m := mapBlocks f n m
    writeBlock m n (f (readBlock m n))

/-- The effect of a block command: the blocks of the data through `f`, with KDSB_0. -/
def blockBody (f : Kdsb → Block → Block) (s : State) : State :=
  s.withBuf (mapBlocks (f s.bank0.kdsb) (s.curLen.toNat / 8) s.buf)

/-- A block command with its checks (R285, R286). -/
def blockCommand (f : Kdsb → Block → Block) (s : State) : Host.Outcome State Fault Refusal :=
  runCommand (blockCheck s.cfg s.bank0 s.curLen.toNat) (blockBody f) s

/-- ENCRYPT (R285). -/
def execEncrypt (s : State) : Host.Outcome State Fault Refusal := blockCommand encryptBlock s

/-- DECRYPT (R286). -/
def execDecrypt (s : State) : Host.Outcome State Fault Refusal := blockCommand decryptBlock s

end Sys2Proof.Machine
end

