-- ==== Sys2Proof/Machine/Primitives.lean ====
section
/-! DEFINITION. L, L2, FF, GG and the NLFSR (40_primitives.md). -/

namespace Sys2Proof.Machine

/-- The rotate-XOR diffusion function L (R142). -/
def diffuseL (x : Word) : Word := x ^^^ rotl x 2 ^^^ rotl x 10 ^^^ rotl x 18 ^^^ rotl x 24

/-- The rotate-XOR diffusion function L2 (R143). -/
def diffuseL2 (x : Word) : Word := x ^^^ rotl x 13 ^^^ rotl x 23

/-- FF: XOR below the boundary 3*size/4, bitwise majority from it on (R144). -/
def selectFF (A B C : Word) (index size : Nat) : Word :=
  if index < 3 * size / 4 then A ^^^ B ^^^ C else (A &&& B) ||| (A &&& C) ||| (B &&& C)

/-- GG: XOR below the boundary 3*size/4, bitwise choose from it on (R145). -/
def selectGG (A B C : Word) (index size : Nat) : Word :=
  if index < 3 * size / 4 then A ^^^ B ^^^ C else (A &&& B) ||| (~~~A &&& C)

/-- The feedback bit of one NLFSR round: the taps and H read before the shift (R147). -/
def nlfsrFeedback (P : OpenParams) (r : Word) : Bool :=
  Bool.xor
    (P.nlfsrF (r.getLsbD 31) (r.getLsbD 28) (r.getLsbD 23) (r.getLsbD 17) (r.getLsbD 13) (r.getLsbD 4) (r.getLsbD 1))
    (Bool.xor (r.getLsbD 16) (r.getLsbD 0))

/-- One NLFSR round: shift right by one, inject the feedback bit into bit 31 (R147). -/
def nlfsrRound (P : OpenParams) (r : Word) : Word :=
  (r >>> 1) ||| ((BitVec.ofBool (nlfsrFeedback P r)).setWidth 32 <<< 31)

/-- `n` NLFSR rounds. -/
def nlfsrRounds (P : OpenParams) : Nat → Word → Word
  | 0, r => r
  | n + 1, r => nlfsrRounds P n (nlfsrRound P r)

/-- NLFSR: 64 rounds (R147). -/
@[irreducible] def nlfsr (P : OpenParams) (r : Word) : Word := nlfsrRounds P 64 r

end Sys2Proof.Machine
end

