-- ==== Sys2Proof/Machine/Mixing.lean ====
section
/-! DEFINITION. The mixing primitives, the round operator and the pass (41_mixing.md). Each takes the counter, RI and
the KDSB and gives the new KDSB and RI (R180). -/

namespace Sys2Proof.Machine

/-- MixWithAddSubtract (R181): the OPEN parameter. -/
def mixWithAddSubtract (P : OpenParams) (c : Fin 128) (ri : RandomIndex) (K : Kdsb) : Kdsb × RandomIndex :=
  P.mixAS c ri K

/-- `pos = RI % 128` (R183). -/
def mixPos (ri : RandomIndex) : Fin 128 := Fin.ofNat 128 ri.toNat

/-- RandomAccessMix (R183). -/
def randomAccessMix (P : OpenParams) (c : Fin 128) (ri : RandomIndex) (K : Kdsb) : Kdsb × RandomIndex :=
  let pos := mixPos ri
  let K := kWrite K c (kRead K c ^^^ kRead K pos)
  let K := kWrite K c (P.ramFold (kRead K c) (P.magic (Fin.ofNat 4 pos.val)) c pos ri)
  (K, ri)

/-- ComplexMix step 1: each half of RI through the NLFSR, in its place (R185). -/
def nlfsrHalves (P : OpenParams) (ri : RandomIndex) : RandomIndex := join64 (nlfsr P (hi32 ri)) (nlfsr P (lo32 ri))

/-- ComplexMix steps 2 to 4, with the RI of step 1 (R186, R187). -/
def complexMixHead (c : Fin 128) (ri : RandomIndex) (K : Kdsb) : Kdsb :=
  let K := kWrite K c (kRead K c ^^^ (kRead K (idx c (-2)) ^^^ kRead K (idx c (-1))))
  let K := kWrite K c (kRead K c + selectGG (BitVec.ofNat 32 c.val) (kRead K (idx c (-1))) (lo32 ri) c.val 128)
  kWrite K c (kRead K c -
    selectFF (kRead K (idx c (-3))) (diffuseL (kRead K (idx c (-2)))) (kRead K (idx c (-1))) c.val 128)

/-- ComplexMix (R189). -/
def complexMix (P : OpenParams) (c : Fin 128) (ri : RandomIndex) (K : Kdsb) : Kdsb × RandomIndex :=
  let ri := nlfsrHalves P ri
  P.cmTail c ri (complexMixHead c ri K)

/-- The round operator (R190). -/
def roundOp (P : OpenParams) (c : Fin 128) (ri : RandomIndex) (K : Kdsb) : Kdsb × RandomIndex :=
  let m := mixWithAddSubtract P c ri K
  let m := randomAccessMix P c m.2 m.1
  complexMix P c m.2 m.1

/-- The round operator at the counters 0 .. n-1, in increasing order. -/
def roundOps (P : OpenParams) : Nat → Kdsb × RandomIndex → Kdsb × RandomIndex
  | 0, m => m
  | n + 1, m =>
    let m := roundOps P n m
    roundOp P (Fin.ofNat 128 n) m.2 m.1

/-- An outer round: every counter 0 .. 127 (R191). -/
def outerRound (P : OpenParams) (m : Kdsb × RandomIndex) : Kdsb × RandomIndex := roundOps P 128 m

/-- A pass: 4 outer rounds with one RI threaded through (R192). -/
@[irreducible] def pass (P : OpenParams) (ri : RandomIndex) (K : Kdsb) : Kdsb × RandomIndex :=
  outerRound P (outerRound P (outerRound P (outerRound P (K, ri))))

end Sys2Proof.Machine
end

