-- ==== Sys2Proof/Machine/KeySchedule.lean ====
section
/-! DEFINITION. Key-word preprocessing, the key schedule and KEYSCHED (42_keysched.md R210 to R226). -/

namespace Sys2Proof.Machine

/-! ## Key words (R210) -/

/-- The key with zero bytes up to a multiple of 4. -/
def padKey (key : List Byte) : List Byte := key ++ List.replicate ((4 - key.length % 4) % 4) 0

/-- `SBOX_A[SBOX_A[x]]`. -/
def twiceA (P : OpenParams) (x : Byte) : Byte := P.sboxA (P.sboxA x)

/-- `SBOX_B[SBOX_B[x]]`. -/
def twiceB (P : OpenParams) (x : Byte) : Byte := P.sboxB (P.sboxB x)

/-- The word of one key group (A, B, C, D): D', B', C', A' from bit 31 down (R210). -/
def groupWord (P : OpenParams) (A B C D : Byte) : Word := twiceB P D ++ twiceA P B ++ twiceB P C ++ twiceA P A

/-- The words of the key groups. -/
def groupWords (P : OpenParams) : List Byte → List Word
  | A :: B :: C :: D :: rest => groupWord P A B C D :: groupWords P rest
  | _ => []

/-- `KeyWords(key)` (R210). -/
def keyWords (P : OpenParams) (key : List Byte) : List Word := groupWords P (padKey key)

/-! ## Chunks (R213 to R221) -/

/-- What the key schedule works on: K, S, RI and the chunk store. -/
structure Schedule where
  k : Kdsb
  s : Words128
  ri : RandomIndex
  chunk : List Word

/-- How many chunks `n` key words make (R213). -/
def chunkCount (n : Nat) : Nat := (n + 127) / 128

/-- The words of chunk `k` (R213, R215). -/
def chunkWords (kb : List Word) (k : Nat) : List Word := (kb.drop (128 * k)).take 128

/-- One chunk word mixed with the State word at its position: add, then XOR (R217). -/
def premixWord (x s : Word) : Word := (x + highHalf s) ^^^ lowHalf s

/-- The pre-mix of a chunk (R217). -/
def premix (chunk : List Word) (S : Words128) : List Word := List.zipWith premixWord chunk S.toList

/-- `K[p] <- chunk[p]` for every position of the chunk (R218). -/
def loadChunk (K : Kdsb) (chunk : List Word) : Kdsb := kBuild fun p => chunk.getD p.val (kRead K p)

/-- One State word of a snapshot: XOR, then add (R220). -/
def snapshotWord (kp w : Word) : Word := (kp ^^^ highHalf w) + lowHalf w

/-- The snapshot of K into State; `folded` are the words it folds in, as many as the chunk has (R220). -/
def snapshot (cfg : HwConfig) (folded : List Word) (K : Kdsb) (S : Words128) : Words128 :=
  kBuild fun p =>
    if p.val < folded.length then snapshotWord (kRead K p) (folded.getD p.val 0)
    else match cfg.snapshotTail with
      | .copyKdsb => kRead K p
      | .keepState => kRead S p

/-- The key words a snapshot folds in: as they came, or after the pre-mix (R220). -/
def foldedWords (cfg : HwConfig) (original mixed : List Word) : List Word :=
  match cfg.snapshotKeyword with
  | .original => original
  | .premixed => mixed

/-- RI at the start of a chunk (R216). -/
def chunkStartRi (cfg : HwConfig) (ri : RandomIndex) : RandomIndex := if cfg.riResetPerChunk then 0 else ri

/-- Chunk `k` of the key words `kb` (R215 to R220). -/
def scheduleChunk (P : OpenParams) (cfg : HwConfig) (kb : List Word) (k : Nat) (t : Schedule) : Schedule :=
  let original := chunkWords kb k
  let chunk := if k = 0 then original else premix original t.s
  let m := pass P (chunkStartRi cfg t.ri) (loadChunk t.k chunk)
  { k := m.1
    s := if 128 ≤ 128 * k + original.length then snapshot cfg (foldedWords cfg original chunk) m.1 t.s else t.s
    ri := m.2
    chunk := chunk }

/-- What the key schedule starts from: everything zero (R214, R216). -/
def scheduleStart : Schedule where
  k := kZero
  s := kZero
  ri := 0
  chunk := []

/-- The chunks 0 .. n-1. -/
def scheduleChunks (P : OpenParams) (cfg : HwConfig) (kb : List Word) : Nat → Schedule
  | 0 => scheduleStart
  | n + 1 => scheduleChunk P cfg kb n (scheduleChunks P cfg kb n)

/-- `KeySchedule` on key words (R222). -/
def scheduleWords (P : OpenParams) (cfg : HwConfig) (kb : List Word) : Schedule :=
  scheduleChunks P cfg kb (chunkCount kb.length)

/-- `KeySchedule(key)` (R222). -/
def keySchedule (P : OpenParams) (cfg : HwConfig) (key : List Byte) : Schedule :=
  scheduleWords P cfg (keyWords P key)

/-! ## KEYSCHED (R225) -/

/-- The effect of KEYSCHED on context `c`: the stores are filled, the context keyed, the stores scrubbed. -/
def keyschedBody (c : CtxId) (s : State) : State :=
  let kb := keyWords Config.openParams (readKey s.buf s.curLen.toNat)
  let t := scheduleWords Config.openParams s.cfg kb
  ((s.withKeyStores kb t.chunk).setBank c ⟨t.k, t.s, true⟩).scrubKeyStores

/-- KEYSCHED on context `c`. -/
def keyschedCommand (c : CtxId) (s : State) : Host.Outcome State Fault Refusal :=
  runCommand (keyCheck s.cfg s.curLen.toNat) (keyschedBody c) s

/-- KEYSCHED.0 (R225). -/
def execKeysched0 (s : State) : Host.Outcome State Fault Refusal := keyschedCommand .c0 s

/-- KEYSCHED.1 (R225). -/
def execKeysched1 (s : State) : Host.Outcome State Fault Refusal := keyschedCommand .c1 s

end Sys2Proof.Machine
end

