-- ==== Sys2Proof/Machine/Stream.lean ====
section
/-! DEFINITION. KEYSTREAM (43_stream.md). -/

namespace Sys2Proof.Machine

/-- What the generator works on: K, S and RI. -/
structure Generator where
  k : Kdsb
  s : Words128
  ri : RandomIndex

/-- `K[i]` with `S[i]` folded in: add, then XOR (R252). -/
def foldIn (k s : Word) : Word := (k + highHalf s) ^^^ lowHalf s

/-- `S[i]` with `K[i]` folded back: XOR, then add (R252). -/
def foldBack (s k : Word) : Word := (s ^^^ highHalf k) + lowHalf k

/-- Iteration `i` of the generator (R252). -/
def generateStep (P : OpenParams) (i : Fin 128) (t : Generator) : Generator :=
  let K := kWrite t.k i (foldIn (kRead t.k i) (kRead t.s i))
  let m := pass P t.ri K
  { k := m.1
    s := kWrite t.s i (foldBack (kRead t.s i) (kRead m.1 i))
    ri := m.2 }

/-- The iterations 0 .. n-1. -/
def generateSteps (P : OpenParams) : Nat → Generator → Generator
  | 0, t => t
  | n + 1, t => generateStep P (Fin.ofNat 128 n) (generateSteps P n t)

/-- `Generate(K, S)`: RI 0, then 128 iterations (R251, R253). -/
@[irreducible] def generate (P : OpenParams) (K : Kdsb) (S : Words128) : Generator := generateSteps P 128 ⟨K, S, 0⟩

/-- Keystream byte `b`: byte b % 4 of State word b / 4, from the least significant one (R254). -/
def keystreamByte (S : Words128) (b : Nat) : Byte :=
  (kRead S (Fin.ofNat 128 (b / 4))).extractLsb' (8 * (b % 4)) 8

/-- The first `len` keystream bytes (R254). -/
def keystreamBytes (S : Words128) (len : Nat) : List Byte := (List.range len).map (keystreamByte S)

/-- The effect of KEYSTREAM (R255). -/
def keystreamBody (s : State) : State :=
  let t := generate Config.openParams s.bank1.kdsb s.bank1.state
  (s.setBank .c1 ⟨t.k, t.s, s.bank1.keyed⟩).withBuf (s.buf.writeBytes 0 (keystreamBytes t.s s.curLen.toNat))

/-- KEYSTREAM (R255). -/
def execKeystream (s : State) : Host.Outcome State Fault Refusal :=
  runCommand (streamCheck s.cfg s.bank1 s.curLen.toNat) keystreamBody s

end Sys2Proof.Machine
end

