-- ==== Sys2Proof/Machine/Zeroize.lean ====
section
/-! DEFINITION. ZEROIZE (42_keysched.md R230). -/

namespace Sys2Proof.Machine

/-- The context zeroed and unkeyed. -/
def zeroizeBody (c : CtxId) (s : State) : State := s.setBank c ⟨kZero, kZero, false⟩

/-- ZEROIZE on context `c`: it has no check. -/
def zeroizeCommand (c : CtxId) (s : State) : Host.Outcome State Fault Refusal := runCommand none (zeroizeBody c) s

/-- ZEROIZE.0 (R230). -/
def execZeroize0 (s : State) : Host.Outcome State Fault Refusal := zeroizeCommand .c0 s

/-- ZEROIZE.1 (R230). -/
def execZeroize1 (s : State) : Host.Outcome State Fault Refusal := zeroizeCommand .c1 s

end Sys2Proof.Machine
end

