-- ==== Sys2Proof/Machine/Dispatch.lean ====
section
/-! DEFINITION. The dispatcher: one arm per command (R312, `Exec`). -/

namespace Sys2Proof.Machine

/-- The completion step of a command: its checks, its effect, its report in STATUS (R312). -/
def exec (i : Instr) (s : State) : Host.Outcome State Fault Refusal :=
  match i with
  | .keysched0 => Sys2Proof.Machine.execKeysched0 s
  | .keysched1 => Sys2Proof.Machine.execKeysched1 s
  | .encrypt => Sys2Proof.Machine.execEncrypt s
  | .decrypt => Sys2Proof.Machine.execDecrypt s
  | .keystream => Sys2Proof.Machine.execKeystream s
  | .zeroize0 => Sys2Proof.Machine.execZeroize0 s
  | .zeroize1 => Sys2Proof.Machine.execZeroize1 s

end Sys2Proof.Machine
end

