-- ==== Sys2Proof/Machine/Flags.lean ====
section
/-! DEFINITION. The words STATUS and IRQEN read as, and the interrupt output (R41, R43, R321). -/

namespace Sys2Proof.Machine

/-- What a read of STATUS returns (R41): bits 31:11 and bit 3 read 0. -/
def statusWord (s : State) : Word :=
  0#21 ++ BitVec.ofBool s.busyerr ++ BitVec.ofBool s.bank1.keyed ++ BitVec.ofBool s.bank0.keyed ++ s.errcode ++
    0#1 ++ BitVec.ofBool s.err ++ BitVec.ofBool s.done ++ BitVec.ofBool s.busy

/-- What a read of IRQEN returns (R43): bits 31:1 read 0. -/
def irqenWord (s : State) : Word := 0#31 ++ BitVec.ofBool s.ie

/-- The interrupt output `IRQ = IRQEN.IE & STATUS.DONE` (R321). -/
def State.irq (s : State) : Bool := s.ie && s.done

end Sys2Proof.Machine
end

