-- ==== Sys2Proof/Machine/HostBus.lean ====
section
/-! DEFINITION. The host's accesses to the window (R40 to R43, R79 to R85, R320) and its programs (R117). -/

namespace Sys2Proof.Machine

/-- The data of a read arrives at the host. -/
def receive (d : ReadData) (s : State) : State := { s with received := d :: s.received }

/-- A dropped write: the sticky BUSYERR is set and nothing else changes (R320). -/
def dropWrite (s : State) : State := { s with busyerr := true }

/-- A free value is drawn (R84). -/
def draw (s : State) : Word × State := (Config.busyRead s.draws, { s with draws := s.draws + 1 })

/-- What a read of a register returns; no read has a side effect (R40 to R43, R82). -/
def readReg (r : Reg) (s : State) : Word :=
  match r with
  | .cmd => s.cmd
  | .len => s.len
  | .status => statusWord s
  | .irqen => irqenWord s

/-- A write of a register (R40 to R43, R82): CMD starts a command unless one is running; the others are served at
any time. -/
def writeReg (r : Reg) (w : Word) (s : State) : State :=
  match r with
  | .cmd => if s.busy then dropWrite s else acceptCommand w s
  | .len => { s with len := w }
  | .status => clearStatus w s
  | .irqen => { s with ie := w.getLsbD 0 }

/-- A read of BUF[a]: its byte, or a free value while BUSY = 1 (R84). -/
def readBufByte (a : Nat) (s : State) : State :=
  if s.busy then
    let d := draw s
    receive (.byte (d.1.setWidth 8)) d.2
  else receive (.byte (s.buf.read a)) s

/-- A read of the four bytes from BUF[a] on, little-endian (R76), or a free value while BUSY = 1 (R84). -/
def readBufWord (a : Nat) (s : State) : State :=
  if s.busy then
    let d := draw s
    receive (.word d.1) d.2
  else receive (.word (s.buf.readWord a)) s

/-- A write of BUF[a]; dropped while BUSY = 1 (R84, R320). -/
def writeBufByte (a : Nat) (v : Byte) (s : State) : State :=
  if s.busy then dropWrite s else s.withBuf (s.buf.write a v)

/-- A write of the four bytes from BUF[a] on, little-endian (R76); dropped while BUSY = 1 (R84, R320). -/
def writeBufWord (a : Nat) (v : Word) (s : State) : State :=
  if s.busy then dropWrite s else s.withBuf (s.buf.writeWord a v)

/-- A supported read. -/
def readTarget (t : Target) (s : State) : State :=
  match t with
  | .reg r => receive (.word (readReg r s)) s
  | .bufByte a => readBufByte a s
  | .bufWord a => readBufWord a s

/-- A supported write; an 8-bit write stores the low byte of the value. -/
def writeTarget (t : Target) (v : Word) (s : State) : State :=
  match t with
  | .reg r => writeReg r v s
  | .bufByte a => writeBufByte a (v.setWidth 8) s
  | .bufWord a => writeBufWord a v s

/-- A bus error (R79): it changes no engine state (R320) and stops the host's program, not the engine. A busy engine goes on
to its completion step (R310); with the engine idle the run ends in the fault (log 17). -/
def busError (e : Fault) (s : State) : Host.Outcome State Fault Refusal :=
  if s.busy then .next { s with hostStopped := some e } else .fault e

/-- One host access; whether it is a bus error is decided before BUSY is looked at (log 7). -/
def hostAccess (a : Access) (s : State) : Host.Outcome State Fault Refusal :=
  match a with
  | .read width addr =>
    match busTarget s.cfg width addr with
    | .ok t => .next (readTarget t s)
    | .error e => busError e s
  | .write width addr v =>
    match busTarget s.cfg width addr with
    | .ok t => .next (writeTarget t v s)
    | .error e => busError e s

/-- The next operation of a host program that runs (R85, R117). WAIT stays while BUSY = 1; with no operation left the host
does nothing. -/
def hostOperation (s : State) : Host.Outcome State Fault Refusal :=
  match s.hostProg with
  | [] => .next s
  | .access a :: rest => hostAccess a { s with hostProg := rest }
  | .wait :: rest => .next (if s.busy then s else { s with hostProg := rest })

/-- The host's turn: its next operation, unless a bus error has stopped its program. -/
def hostTurn (s : State) : Host.Outcome State Fault Refusal :=
  match s.hostStopped with
  | none => hostOperation s
  | some e => busError e s

/-! ## The notation of host programs (R117); `base` is `ENGINE_BASE` -/

/-- `WR32 off, v`. -/
def opWr32 (base off : Nat) (v : Word) : HostOp := .access (.write 32 (base + off) v)

/-- `WR8 off, v`. -/
def opWr8 (base off : Nat) (v : Byte) : HostOp := .access (.write 8 (base + off) (v.setWidth 32))

/-- `RD32 off`. -/
def opRd32 (base off : Nat) : HostOp := .access (.read 32 (base + off))

/-- `RD8 off`. -/
def opRd8 (base off : Nat) : HostOp := .access (.read 8 (base + off))

/-- `CMD m`, for any word. -/
def opCmd (base : Nat) (w : Word) : HostOp := opWr32 base Reg.cmd.offset w

/-- `RUN m, n`. -/
def opsRun (base : Nat) (w n : Word) : List HostOp := [opWr32 base Reg.len.offset n, opCmd base w, .wait]

/-- `FILL a, b0 b1 ...`. -/
def opsFill (base a : Nat) : List Byte → List HostOp
  | [] => []
  | b :: bs => opWr8 base (0x1000 + a) b :: opsFill base (a + 1) bs

/-- `FILLW a, w0 w1 ...`. -/
def opsFillW (base a : Nat) : List Word → List HostOp
  | [] => []
  | w :: ws => opWr32 base (0x1000 + a) w :: opsFillW base (a + 4) ws

end Sys2Proof.Machine
end

