-- ==== Sys2Proof/Machine/Engine.lean ====
section
/-! DEFINITION. The engine's completion step on the latched word (R312, R315), and whose turn it is (R310, R323). -/

namespace Sys2Proof.Machine

/-- The completion step: the command the latches name, or ERR_OPCODE for an illegal word (R312, R315). -/
def completionStep (s : State) : Host.Outcome State Fault Refusal :=
  match decodeFields s.latched with
  | .ok i => exec i s
  | .error _ => .next (completeError .opcode s)

/-- The engine's turn: its only step is the completion step, taken when BUSY = 1 (R312). -/
def engineTurn (s : State) : Host.Outcome State Fault Refusal := if s.busy then completionStep s else .next s

/-- One step of the machine (R30, R310, R323): the scheduled agent moves; with no schedule left a busy engine
completes (so completion is always eventually taken) and otherwise the host goes on (log 4). -/
def takeTurn (s : State) : Host.Outcome State Fault Refusal :=
  match s.turns with
  | [] => if s.busy then completionStep s else hostTurn s
  | .host :: rest => hostTurn { s with turns := rest }
  | .engine :: rest => engineTurn { s with turns := rest }
  | .reset :: rest => .next (resetEngine { s with turns := rest })

/-- The command word `w` accepted (R311) and the engine moving next: where a program comes from (log 10). -/
def placeCommand (w : Word) (s : State) : State := { acceptCommand w s with turns := .engine :: s.turns }

end Sys2Proof.Machine
end

