-- ==== Sys2Proof/Machine/Step.lean ====
section
/-! DEFINITION. One step, and placing a command word where the next step runs it. -/

namespace Sys2Proof.Machine

/-- One step of the machine. -/
def step (s : State) : Host.Outcome State Fault Refusal := takeTurn s

/-- `s` with the word of a command placed so that the next step is its completion step. The engine fetches nothing
(R87, R351): a command reaches it through a write of CMD, and this is that write's acceptance (log 10). -/
def State.withFetchWord (s : State) (nbits w : Nat) : State := placeCommand (tableWord nbits w) s

end Sys2Proof.Machine
end

