-- ==== Sys2Proof/Safety.lean ====
section
/-! DEFINITION. What claims are stated in: the invariant of the machine, what the host can see, and the premises on the
OPEN parameters the spec lets a claim take (R182, R188). -/

namespace Sys2Proof.Machine

/-! ## Invariant -/

/-- A context that holds nothing but zeros. -/
def Bank.allZero (b : Bank) : Prop := b.kdsb = kZero ∧ b.state = kZero

/-- BUF is in canonical form and lies inside `BUF_BYTES` (R72). -/
def State.bufOk (s : State) : Prop := s.buf.wf = true ∧ s.buf.below s.cfg.bufBytes = true

/-- STATUS is one a command can leave (R41, R311 to R313): ERRCODE is a code of R313, nonzero exactly with ERR, and a
running command has DONE, ERR and ERRCODE clear. -/
def State.statusOk (s : State) : Prop :=
  s.errcode.toNat ≤ 4 ∧ (s.err = true ↔ s.errcode ≠ 0) ∧ (s.busy = true → s.done = false ∧ s.err = false)

/-- The latches of a running command hold the fields of CMD (R40, R44, R311). -/
def State.latchesOk (s : State) : Prop := s.busy = true → s.latched = fieldsOf s.cmd

/-- Nothing of a command outlives its completion step: RI is 0 while the engine is idle (R35, R45), and the transient
stores hold nothing between steps (R37). -/
def State.scrubbed (s : State) : Prop := (s.busy = false → s.ri = 0) ∧ s.keyBlocks = [] ∧ s.chunk = []

/-- An unkeyed context 0 is all zero; an unkeyed context 1 is, under `fail_closed` (R317, R34). -/
def State.unkeyedOk (s : State) : Prop :=
  (s.bank0.keyed = false → s.bank0.allZero) ∧
    (s.cfg.unkeyedPolicy = .failClosed → s.bank1.keyed = false → s.bank1.allZero)

/-- The invariant of the machine. -/
structure State.Inv (s : State) : Prop where
  /-- The interface parameters are legal (R7). -/
  cfg : s.cfg.wf = true
  buf : s.bufOk
  status : s.statusOk
  latches : s.latchesOk
  scrubbed : s.scrubbed
  unkeyed : s.unkeyedOk

/-- Every piece of the engine's state reads as its value of R46. -/
structure State.atReset (s : State) : Prop where
  kdsb0 : ∀ i, kRead s.bank0.kdsb i = 0
  kdsb1 : ∀ i, kRead s.bank1.kdsb i = 0
  state0 : ∀ i, kRead s.bank0.state i = 0
  state1 : ∀ i, kRead s.bank1.state i = 0
  keyed : s.bank0.keyed = false ∧ s.bank1.keyed = false
  ri : s.ri = 0
  keyBlocks : ∀ w ∈ s.keyBlocks, w = 0
  chunk : ∀ w ∈ s.chunk, w = 0
  buf : ∀ a, s.buf.read a = 0
  regs : s.cmd = 0 ∧ s.len = 0 ∧ statusWord s = 0 ∧ irqenWord s = 0
  flags : s.busy = false ∧ s.done = false ∧ s.err = false ∧ s.errcode = 0 ∧ s.busyerr = false ∧ s.ie = false
  latches : s.curOp = 0 ∧ s.curCtx = 0 ∧ s.curRsvd = 0 ∧ s.curLen = 0

/-! ## Runs -/

/-- What a host can see or has still to do: everything but the contexts' key material, RI and the transient stores
(R324). -/
structure State.sameVisible (s t : State) : Prop where
  cfg : s.cfg = t.cfg
  keyed0 : s.bank0.keyed = t.bank0.keyed
  keyed1 : s.bank1.keyed = t.bank1.keyed
  buf : s.buf = t.buf
  cmd : s.cmd = t.cmd
  len : s.len = t.len
  busy : s.busy = t.busy
  done : s.done = t.done
  err : s.err = t.err
  errcode : s.errcode = t.errcode
  busyerr : s.busyerr = t.busyerr
  ie : s.ie = t.ie
  latched : s.latched = t.latched
  curLen : s.curLen = t.curLen
  hostProg : s.hostProg = t.hostProg
  received : s.received = t.received
  hostStopped : s.hostStopped = t.hostStopped
  turns : s.turns = t.turns
  draws : s.draws = t.draws

/-- Two outcomes are of one kind and, where both are next states, the host sees the same. -/
def sameOutcome : Host.Outcome State Fault Refusal → Host.Outcome State Fault Refusal → Prop
  | .next s, .next t => s.sameVisible t
  | .fault e, .fault f => e = f
  | .refused e, .refused f => e = f
  | _, _ => False

/-- The host moves next, its program runs, and its next operation is the access `a`; `ts` and `rest` come after. -/
def State.hostDoes (s : State) (a : Access) (ts : List Turn) (rest : List HostOp) : Prop :=
  s.turns = .host :: ts ∧ s.hostStopped = none ∧ s.hostProg = .access a :: rest

/-- The engine moves next; `ts` comes after. -/
def State.engineMoves (s : State) (ts : List Turn) : Prop := s.turns = .engine :: ts

/-- The host moves next: by the schedule, or because the schedule is over and the engine idle. -/
def State.hostMoves (s : State) : Prop := (∃ ts, s.turns = .host :: ts) ∨ (s.turns = [] ∧ s.busy = false)

/-- `s` with the host's operation and turn used up. -/
def State.afterHost (s : State) (ts : List Turn) (rest : List HostOp) : State :=
  { s with turns := ts, hostProg := rest }

/-- BUF holds the same first `len` bytes. -/
def sameKey (m n : Memory) (len : Nat) : Prop := ∀ i, i < len → m.read i = n.read i

/-- The conditions under which ENCRYPT and DECRYPT execute (R285): the context keyed or the policy `compat_zero`, and
LEN a multiple of 8 that fits BUF. -/
def State.blockReady (s : State) : Prop :=
  (s.cfg.unkeyedPolicy = .compatZero ∨ s.bank0.keyed = true) ∧ s.curLen.toNat % 8 = 0 ∧
    s.curLen.toNat ≤ s.cfg.bufBytes / 4

/-- The conditions under which KEYSTREAM executes (R255). -/
def State.streamReady (s : State) : Prop :=
  (s.cfg.unkeyedPolicy = .compatZero ∨ s.bank1.keyed = true) ∧ s.curLen.toNat ≤ 512 ∧
    s.curLen.toNat ≤ s.cfg.bufBytes

/-- The condition under which KEYSCHED executes (R225). -/
def State.keyReady (s : State) : Prop := 1 ≤ s.curLen.toNat ∧ s.curLen.toNat ≤ s.cfg.bufBytes

/-- An access of a width at a window offset that the engine supports (R70, R80, R81). -/
def supportedAccess (bufBytes width off : Nat) : Prop :=
  (width = 32 ∧ (off = 0x000 ∨ off = 0x004 ∨ off = 0x008 ∨ off = 0x00C)) ∨
    (width = 8 ∧ 0x1000 ≤ off ∧ off < 0x1000 + bufBytes) ∨
    (width = 32 ∧ off % 4 = 0 ∧ 0x1000 ≤ off ∧ off + 4 ≤ 0x1000 + bufBytes)

/-! ## Premises on the OPEN parameters (log 1) -/

/-- What MixWithAddSubtract writes of K: at most `K[c]` and `K[idx(c, +1)]`. INFERRED, a premise and no restriction of the
model (R182). -/
def OpenParamsMixFootprint (P : OpenParams) : Prop :=
  ∀ c ri K i, i ≠ c → i ≠ idx c 1 → kRead (P.mixAS c ri K).1 i = kRead K i

/-- What MixWithAddSubtract reads of K: at most `K[c]` and `K[idx(c, +1)]`, so that RI and the two words it may write
depend on no other word. INFERRED, a premise and no restriction of the model (R182). -/
def OpenParamsMixReads (P : OpenParams) : Prop :=
  ∀ c ri K L, kRead K c = kRead L c → kRead K (idx c 1) = kRead L (idx c 1) →
    (P.mixAS c ri K).2 = (P.mixAS c ri L).2 ∧ kRead (P.mixAS c ri K).1 c = kRead (P.mixAS c ri L).1 c ∧
      kRead (P.mixAS c ri K).1 (idx c 1) = kRead (P.mixAS c ri L).1 (idx c 1)

/-- What ComplexMix's tail writes of K: at most `K[idx(c, +1)]` and `K[idx(c, +2)]`. INFERRED, a premise and no restriction
of the model (R188). What it reads is all of K, RI and c, which the type of `CM_TAIL` says. -/
def OpenParamsTailFootprint (P : OpenParams) : Prop :=
  ∀ c ri K i, i ≠ idx c 1 → i ≠ idx c 2 → kRead (P.cmTail c ri K).1 i = kRead K i

end Sys2Proof.Machine
end

