-- ==== Sys2Proof/Certificates/Slice0/Obligations.lean ====
section
/-! DEFINITION. The statements for the provers, each with the rule of spec/ it formalises. -/

open Sys2Proof Sys2Proof.Machine

/-! ## Encoding (30_encoding.md) -/

/-- R112, R113: the table's words name their commands, and words the rule gives as illegal name none. -/
def Obligations.TableWordsDecode : Prop :=
  decodeTableWord 32 0x00000001 = some .keysched0 ∧ decodeTableWord 32 0x00000011 = some .keysched1 ∧
  decodeTableWord 32 0x00000002 = some .encrypt ∧ decodeTableWord 32 0x00000003 = some .decrypt ∧
  decodeTableWord 32 0x00000014 = some .keystream ∧ decodeTableWord 32 0x00000005 = some .zeroize0 ∧
  decodeTableWord 32 0x00000015 = some .zeroize1 ∧ decodeTableWord 32 0x00000012 = none ∧
  decodeTableWord 32 0x00000013 = none ∧ decodeTableWord 32 0x00000004 = none ∧
  decodeTableWord 32 0x00000000 = none ∧ decodeTableWord 32 0x00000006 = none ∧
  decodeTableWord 32 0x0000000F = none ∧ decodeTableWord 32 0x00000021 = none

/-- R113: every command is well formed and its word decodes to it. -/
def Obligations.EncodeThenDecode : Prop :=
  ∀ i : Instr, i.wf = true ∧ decode (encode i) = .ok i

/-- R113: a word is legal exactly when its fields are, exactly when it is one of the seven words, and then it is the
word of the command it decodes to. -/
def Obligations.LegalWordsAreExactlyTheSeven : Prop :=
  ∀ w : Word,
    ((∃ i, decode w = .ok i) ↔
      (w.extractLsb' 5 27 = 0 ∧
        (w.extractLsb' 0 4 = 1 ∨ w.extractLsb' 0 4 = 5 ∨
          ((w.extractLsb' 0 4 = 2 ∨ w.extractLsb' 0 4 = 3) ∧ w.extractLsb' 4 1 = 0) ∨
          (w.extractLsb' 0 4 = 4 ∧ w.extractLsb' 4 1 = 1)))) ∧
    ((∃ i, decode w = .ok i) ↔
      w ∈ [0x00000001#32, 0x00000011#32, 0x00000002#32, 0x00000003#32, 0x00000014#32, 0x00000005#32, 0x00000015#32]) ∧
    ∀ i, decode w = .ok i → w = encode i

/-- R315: ERR_OPCODE is raised exactly for illegal command words, and nothing but STATUS changes. -/
def Obligations.ErrOpcodeExactlyForIllegalWords : Prop :=
  ∀ (s : State) (ts : List Turn), s.engineMoves ts → s.busy = true →
    (s.latched.legal = false →
      step s = .next { s with
        turns := ts, err := true, errcode := 1, ri := 0, busy := false, done := true }) ∧
    (s.latched.legal = true → ∃ t, step s = .next t ∧ t.errcode ≠ 1)

/-! ## Steps and the life of a command (60_exceptions.md, 10_state.md) -/

/-- R312: when the latches of a running command name the command `i`, the engine's step is `exec i` at that state
(with the turn used up). That a busy engine moves when the schedule is over is the model's choice (log 4). -/
def Obligations.StepRunsTheLatchedCommand : Prop :=
  ∀ (s : State) (i : Instr), s.busy = true → decodeFields s.latched = .ok i →
    (∀ ts, s.engineMoves ts → step s = exec i { s with turns := ts }) ∧
    (s.turns = [] → step s = exec i s)

/-- R311: acceptance of any word. -/
def Obligations.AcceptanceOfACommandWord : Prop :=
  ∀ (s : State) (w : Word) (ts : List Turn) (rest : List HostOp),
    s.hostDoes (.write 32 (s.cfg.engineBase + 0x000) w) ts rest → s.busy = false →
    step s = .next { s with
      turns := ts, hostProg := rest, cmd := w, curOp := w.extractLsb' 0 4, curCtx := w.extractLsb' 4 1,
      curRsvd := w.extractLsb' 5 27, curLen := s.len, done := false, err := false, errcode := 0, busy := true }

/-- R311, R312, R44: a command word written to CMD of an idle engine runs as its command at the engine's next turn,
with the LEN of the acceptance, also when the host's program goes on in between with the write of another LEN. The
schedule, the host's program and the note that it has stopped are the model's own data (log 4, log 5, log 17). -/
def Obligations.WrittenCommandRunsWithItsLen : Prop :=
  ∀ (s : State) (i : Instr) (v : Word) (ts : List Turn) (rest : List HostOp),
    s.turns = .host :: .host :: .engine :: ts →
    s.hostProg = .access (.write 32 (s.cfg.engineBase + 0x000) (encode i)) ::
      .access (.write 32 (s.cfg.engineBase + 0x004) v) :: rest →
    s.hostStopped = none → s.busy = false →
    ∃ t u, step s = .next t ∧ step t = .next u ∧ u.len = v ∧ u.curLen = s.len ∧ u.cmd = encode i ∧
      step u = exec i { u with turns := ts }

/-- R350, R46: a reset, from every state, busy or not, leaves every piece of the engine's state at its reset value,
and so does power-on, whatever the interface parameters are. -/
def Obligations.ResetClearsTheEngine : Prop :=
  (∀ (s : State) (ts : List Turn), s.turns = .reset :: ts → ∃ t, step s = .next t ∧ t.atReset) ∧
  ∀ cfg : HwConfig, (State.resetWith cfg).atReset

/-- R351: after reset the engine is idle, IRQ low, no context keyed, STATUS zero, and the next write to CMD is
accepted, whatever else the host's program and the schedule hold. -/
def Obligations.AfterResetIdleAndReady : Prop :=
  ∀ (cfg : HwConfig) (w : Word) (ts : List Turn) (rest : List HostOp),
    let s := State.resetWith cfg
    s.busy = false ∧ s.done = false ∧ s.irq = false ∧ s.bank0.keyed = false ∧ s.bank1.keyed = false ∧
    statusWord s = 0 ∧
    ∃ t, step { s with
        turns := .host :: ts, hostProg := .access (.write 32 (cfg.engineBase + 0x000) w) :: rest } = .next t ∧
      t.busy = true ∧ t.cmd = w ∧ t.turns = ts ∧ t.hostProg = rest

/-- R312, R313: every command completes from every state, and how it reports: BUSY 0, DONE 1, RI 0, ERR with a code of
R313 or no error and code 0; the registers, the latches and the agents around the engine are untouched. -/
def Obligations.EveryCommandCompletes : Prop :=
  ∀ (i : Instr) (s : State), ∃ t, exec i s = .next t ∧
    t.busy = false ∧ t.done = true ∧ t.ri = 0 ∧
    ((t.err = false ∧ t.errcode = 0) ∨ (t.err = true ∧ (t.errcode = 2 ∨ t.errcode = 3 ∨ t.errcode = 4))) ∧
    t.cfg = s.cfg ∧ t.cmd = s.cmd ∧ t.len = s.len ∧ t.busyerr = s.busyerr ∧ t.ie = s.ie ∧ t.latched = s.latched ∧
    t.curLen = s.curLen ∧ t.hostProg = s.hostProg ∧ t.received = s.received ∧ t.hostStopped = s.hostStopped ∧
    t.turns = s.turns ∧ t.draws = s.draws

/-- R314, R312: an error completion changes nothing but STATUS, and RI, which R312 clears at every completion. -/
def Obligations.ErrorCompletionIsPrecise : Prop :=
  ∀ (i : Instr) (s t : State), exec i s = .next t → t.err = true →
    t = { s with err := true, errcode := t.errcode, ri := 0, busy := false, done := true }

/-- R310: within as many steps as the schedule has turns, and one more, a busy engine is idle with DONE = 1, unless one of
the turns taken was a reset, which abandons the command (R350). A bus error on the way stops the host's program and not
the engine (R79, R320, log 17). The schedule is the model's own data (log 4). -/
def Obligations.RunningCommandCompletes : Prop :=
  ∀ s : State, s.busy = true → ∃ k, k ≤ s.turns.length + 1 ∧
    ∃ t, core.run k s = .next t ∧ t.busy = false ∧ (t.done = true ∨ Turn.reset ∈ s.turns.take k)

/-- R31: a command of one context neither reads nor writes the other: with any other contents there it does the same
and leaves them alone. -/
def Obligations.ContextsDoNotMix : Prop :=
  (∀ (i : Instr) (s t : State) (b : Bank), i ∈ [.keysched0, .encrypt, .decrypt, .zeroize0] → exec i s = .next t →
    t.bank1 = s.bank1 ∧ exec i { s with bank1 := b } = .next { t with bank1 := b }) ∧
  (∀ (i : Instr) (s t : State) (b : Bank), i ∈ [.keysched1, .keystream, .zeroize1] → exec i s = .next t →
    t.bank0 = s.bank0 ∧ exec i { s with bank0 := b } = .next { t with bank0 := b })

/-- R34: KEYED_c is set by a KEYSCHED of context c that completes without error, cleared by ZEROIZE of c, and left by
every other command and every error. -/
def Obligations.KeyedFlagFollowsCommands : Prop :=
  ∀ (i : Instr) (s t : State), exec i s = .next t →
    t.bank0.keyed =
      (if i = .keysched0 ∧ t.err = false then true else if i = .zeroize0 then false else s.bank0.keyed) ∧
    t.bank1.keyed =
      (if i = .keysched1 ∧ t.err = false then true else if i = .zeroize1 then false else s.bank1.keyed)

/-! ## Invariants -/

/-- The invariant holds right after reset, whatever legal interface parameters the platform fixed. -/
def Obligations.ResetMeetsTheInvariant : Prop :=
  (∀ cfg : HwConfig, cfg.wf = true → (State.resetWith cfg).Inv) ∧ State.reset.Inv

/-- Every step of every agent keeps the invariant, from every state that meets it. -/
def Obligations.EveryStepKeepsTheInvariant : Prop :=
  ∀ s t : State, s.Inv → step s = .next t → t.Inv

/-- R7: no step changes the interface parameters: the model keeps them in the state (log 2). -/
def Obligations.InterfaceParametersAreFixed : Prop :=
  ∀ s t : State, step s = .next t → t.cfg = s.cfg

/-- R32, R33, R35: no step of the host writes KDSB, State, RI, the stores or the latches of a running command, and it
writes BUF only while the engine is idle. -/
def Obligations.HostNeverWritesKeyMaterial : Prop :=
  ∀ s t : State, s.hostMoves → step s = .next t →
    t.bank0 = s.bank0 ∧ t.bank1 = s.bank1 ∧ t.ri = s.ri ∧ t.keyBlocks = s.keyBlocks ∧ t.chunk = s.chunk ∧
    (s.busy = true → t.latched = s.latched ∧ t.curLen = s.curLen ∧ t.cmd = s.cmd ∧ t.buf = s.buf ∧ t.busy = true)

/-- R324: KDSB, State and RI are never readable through the window: two states that differ in nothing else behave the
same for the host, step by step, until the engine completes a command. That a BUF read while BUSY = 1 gives both states
the same data is the model's choice (log 6, unsafe for this statement): the model draws it from the counter `draws`,
where R84 leaves it unconstrained. The host, what it received and the note that it has stopped are the model's own
data (log 5, log 17). -/
def Obligations.HostCannotSeeKeyMaterial : Prop :=
  ∀ s t : State, s.sameVisible t → (s.hostMoves ∨ ∃ ts, s.turns = .reset :: ts) → sameOutcome (step s) (step t)

/-! ## The host's accesses (10_state.md, 20_memory.md) -/

/-- R80, R81, R70: a host access in the window is a bus error exactly when the engine does not support it. R79, R320: a
bus error stops the host's program and changes no engine state; while BUSY = 1 the engine goes on, and with the engine
idle the run ends in the fault, at once or at the stopped host's next turn. That the shape of an access is looked at
before BUSY (log 7) and where the run ends (log 17) are the model's choices. -/
def Obligations.BusErrorsExactlyForUnsupportedAccesses : Prop :=
  (∀ (s : State) (ts : List Turn) (rest : List HostOp) (width off : Nat) (a : Access),
    (a = .read width (s.cfg.engineBase + off) ∨ ∃ v, a = .write width (s.cfg.engineBase + off) v) →
    s.hostDoes a ts rest →
    (supportedAccess s.cfg.bufBytes width off → ∃ t, step s = .next t ∧ t.hostStopped = none) ∧
    (¬ supportedAccess s.cfg.bufBytes width off →
      (s.busy = false → ∃ f, step s = .fault f) ∧
      (s.busy = true → ∃ f, step s = .next { s with turns := ts, hostProg := rest, hostStopped := some f }))) ∧
  ∀ (s : State) (ts : List Turn) (f : Fault), s.turns = .host :: ts → s.hostStopped = some f →
    (s.busy = true → step s = .next { s with turns := ts }) ∧ (s.busy = false → step s = .fault f)

/-- R41: what a read of STATUS returns, bit by bit. -/
def Obligations.StatusReadsAsTheTable : Prop :=
  ∀ (s : State) (ts : List Turn) (rest : List HostOp),
    s.hostDoes (.read 32 (s.cfg.engineBase + 0x008)) ts rest →
    ∃ w : Word,
      step s = .next { s with turns := ts, hostProg := rest, received := .word w :: s.received } ∧
      w.getLsbD 0 = s.busy ∧ w.getLsbD 1 = s.done ∧ w.getLsbD 2 = s.err ∧ w.getLsbD 3 = false ∧
      w.extractLsb' 4 4 = s.errcode ∧ w.getLsbD 8 = s.bank0.keyed ∧ w.getLsbD 9 = s.bank1.keyed ∧
      w.getLsbD 10 = s.busyerr ∧ w.extractLsb' 11 21 = 0

/-- R41, R322: a write to STATUS clears DONE, ERR (and with it ERRCODE) and BUSYERR where it has a 1, leaves them
where it has a 0, ignores every other bit, and is accepted while BUSY = 1. -/
def Obligations.StatusWriteClearsOnes : Prop :=
  ∀ (s : State) (w : Word) (ts : List Turn) (rest : List HostOp),
    s.hostDoes (.write 32 (s.cfg.engineBase + 0x008) w) ts rest →
    step s = .next { s with
      turns := ts, hostProg := rest
      done := if w.getLsbD 1 then false else s.done
      err := if w.getLsbD 2 then false else s.err
      errcode := if w.getLsbD 2 then 0 else s.errcode
      busyerr := if w.getLsbD 10 then false else s.busyerr }

/-- R40, R42, R43: reads of CMD, LEN and IRQEN, and writes of LEN and IRQEN, in every state, busy or not. -/
def Obligations.RegisterAccessesAtAnyTime : Prop :=
  ∀ (s : State) (w : Word) (ts : List Turn) (rest : List HostOp),
    (s.hostDoes (.read 32 (s.cfg.engineBase + 0x000)) ts rest →
      step s = .next { s with turns := ts, hostProg := rest, received := .word s.cmd :: s.received }) ∧
    (s.hostDoes (.read 32 (s.cfg.engineBase + 0x004)) ts rest →
      step s = .next { s with turns := ts, hostProg := rest, received := .word s.len :: s.received }) ∧
    (s.hostDoes (.read 32 (s.cfg.engineBase + 0x00C)) ts rest →
      step s = .next { s with
        turns := ts, hostProg := rest, received := .word (if s.ie then 1 else 0) :: s.received }) ∧
    (s.hostDoes (.write 32 (s.cfg.engineBase + 0x004) w) ts rest →
      step s = .next { s with turns := ts, hostProg := rest, len := w }) ∧
    (s.hostDoes (.write 32 (s.cfg.engineBase + 0x00C) w) ts rest →
      step s = .next { s with turns := ts, hostProg := rest, ie := w.getLsbD 0 })

/-- R82: no read has a side effect: only the data arrives at the host (and, for a BUF read while BUSY = 1, a free
value is used up, log 6), or the read is a bus error while BUSY = 1, which only stops the host's program (R79, log 17). -/
def Obligations.ReadsHaveNoSideEffect : Prop :=
  ∀ (s t : State) (ts : List Turn) (rest : List HostOp) (width addr : Nat),
    s.hostDoes (.read width addr) ts rest → step s = .next t →
    (∃ d n, t = { s with turns := ts, hostProg := rest, received := d :: s.received, draws := n } ∧
      (s.busy = false → n = s.draws)) ∨
    (s.busy = true ∧ ∃ f, t = { s with turns := ts, hostProg := rest, hostStopped := some f })

/-- R75, R76: a 32-bit write of an idle engine's BUF stores the bytes of the value little-endian and no other byte
changes; an 8-bit write stores one byte. -/
def Obligations.BufWritesAreLittleEndian : Prop :=
  ∀ (s : State) (ts : List Turn) (rest : List HostOp) (a : Nat) (v : Word),
    s.buf.wf = true → s.busy = false →
    (s.hostDoes (.write 32 (s.cfg.engineBase + 0x1000 + a) v) ts rest → a % 4 = 0 → a + 4 ≤ s.cfg.bufBytes →
      ∃ m : Memory, step s = .next { s with turns := ts, hostProg := rest, buf := m } ∧ m.wf = true ∧
        m.read a = v.extractLsb' 0 8 ∧ m.read (a + 1) = v.extractLsb' 8 8 ∧ m.read (a + 2) = v.extractLsb' 16 8 ∧
        m.read (a + 3) = v.extractLsb' 24 8 ∧ ∀ b, (b < a ∨ a + 4 ≤ b) → m.read b = s.buf.read b) ∧
    (s.hostDoes (.write 8 (s.cfg.engineBase + 0x1000 + a) v) ts rest → a < s.cfg.bufBytes →
      ∃ m : Memory, step s = .next { s with turns := ts, hostProg := rest, buf := m } ∧ m.wf = true ∧
        m.read a = v.extractLsb' 0 8 ∧ ∀ b, b ≠ a → m.read b = s.buf.read b)

/-- R74, R76: a 32-bit read of an idle engine's BUF composes the four bytes little-endian; an 8-bit read returns the
byte. -/
def Obligations.BufReadsAreLittleEndian : Prop :=
  ∀ (s : State) (ts : List Turn) (rest : List HostOp) (a : Nat), s.busy = false →
    (s.hostDoes (.read 32 (s.cfg.engineBase + 0x1000 + a)) ts rest → a % 4 = 0 → a + 4 ≤ s.cfg.bufBytes →
      ∃ w : Word, step s = .next { s with turns := ts, hostProg := rest, received := .word w :: s.received } ∧
        w.toNat = (s.buf.read a).toNat + 2 ^ 8 * (s.buf.read (a + 1)).toNat + 2 ^ 16 * (s.buf.read (a + 2)).toNat +
          2 ^ 24 * (s.buf.read (a + 3)).toNat) ∧
    (s.hostDoes (.read 8 (s.cfg.engineBase + 0x1000 + a)) ts rest → a < s.cfg.bufBytes →
      step s = .next { s with turns := ts, hostProg := rest, received := .byte (s.buf.read a) :: s.received })

/-- R84, R320: while BUSY = 1 a write to CMD or to BUF is ignored and sets BUSYERR: nothing else changes. -/
def Obligations.BusyWritesAreDropped : Prop :=
  ∀ (s : State) (ts : List Turn) (rest : List HostOp) (width off : Nat) (v : Word),
    s.hostDoes (.write width (s.cfg.engineBase + off) v) ts rest → s.busy = true →
    supportedAccess s.cfg.bufBytes width off → (off = 0x000 ∨ 0x1000 ≤ off) →
    step s = .next { s with turns := ts, hostProg := rest, busyerr := true }

/-- R320: BUSYERR is sticky: only a write of 1 to it or a reset clears it. -/
def Obligations.BusyerrIsSticky : Prop :=
  ∀ s t : State, step s = .next t → s.busyerr = true → t.busyerr = false →
    (∃ ts, s.turns = .reset :: ts) ∨
    ∃ w rest, s.hostProg = .access (.write 32 (s.cfg.engineBase + 0x008) w) :: rest ∧ w.getLsbD 10 = true

/-- R84: a BUF read while BUSY = 1 returns a free value, a fresh one for each read, and no engine state changes. Where
the free values come from is the model's choice (log 6); nothing is said of any of them. -/
def Obligations.BusyBufReadsAreDraws : Prop :=
  ∀ (s : State) (ts : List Turn) (rest : List HostOp) (a : Nat), s.busy = true →
    (s.hostDoes (.read 32 (s.cfg.engineBase + 0x1000 + a)) ts rest → a % 4 = 0 → a + 4 ≤ s.cfg.bufBytes →
      step s = .next { s with
        turns := ts, hostProg := rest, received := .word (Config.busyRead s.draws) :: s.received,
        draws := s.draws + 1 }) ∧
    (s.hostDoes (.read 8 (s.cfg.engineBase + 0x1000 + a)) ts rest → a < s.cfg.bufBytes →
      step s = .next { s with
        turns := ts, hostProg := rest, received := .byte ((Config.busyRead s.draws).setWidth 8) :: s.received,
        draws := s.draws + 1 })

/-- R321: IRQ is IRQEN.IE AND STATUS.DONE as the host reads them, so a completion raises it exactly when IE = 1, and
an acceptance lowers it. -/
def Obligations.IrqIsEnabledDone : Prop :=
  (∀ s : State, s.irq = ((irqenWord s).getLsbD 0 && (statusWord s).getLsbD 1)) ∧
  (∀ (i : Instr) (s t : State), exec i s = .next t → t.irq = s.ie) ∧
  ∀ (s : State) (w : Word), (acceptCommand w s).irq = false

/-! ## KEYSCHED and ZEROIZE (42_keysched.md) -/

/-- R225: KEYSCHED with a legal length keys its context with the result of KeySchedule on the key in BUF, sets KEYED,
leaves RI 0 and the transient stores scrubbed, and changes nothing else. -/
def Obligations.KeyschedKeysItsContext : Prop :=
  ∀ s : State, s.keyReady →
    let t := keySchedule Config.openParams s.cfg ((List.range s.curLen.toNat).map s.buf.read)
    exec .keysched0 s = .next { s with
      bank0 := ⟨t.k, t.s, true⟩, keyBlocks := [], chunk := [], ri := 0, busy := false, done := true, err := false,
      errcode := 0 } ∧
    exec .keysched1 s = .next { s with
      bank1 := ⟨t.k, t.s, true⟩, keyBlocks := [], chunk := [], ri := 0, busy := false, done := true, err := false,
      errcode := 0 }

/-- R225, R319: KEYSCHED with a length outside 1 .. BUF_BYTES ends in ERR_LENGTH and changes nothing else. -/
def Obligations.KeyschedRefusesBadLength : Prop :=
  ∀ (s : State) (i : Instr), i ∈ [Instr.keysched0, .keysched1] → ¬ s.keyReady →
    exec i s = .next { s with err := true, errcode := 3, ri := 0, busy := false, done := true }

/-- R226: the result of KEYSCHED depends on the key bytes and the parameters alone: from any two states that agree on
them it leaves the same context, whatever was in it. -/
def Obligations.KeyschedForgetsHistory : Prop :=
  ∀ s t s' t' : State, s.keyReady → s.cfg = t.cfg → s.curLen = t.curLen → sameKey s.buf t.buf s.curLen.toNat →
    (exec .keysched0 s = .next s' → exec .keysched0 t = .next t' → s'.bank0 = t'.bank0) ∧
    (exec .keysched1 s = .next s' → exec .keysched1 t = .next t' → s'.bank1 = t'.bank1)

/-- R210: the words of a key: as many as groups of four, each packed from the twice-substituted bytes of its group, a
byte past the key's end being 0. -/
def Obligations.KeyWordsArePackedGroups : Prop :=
  ∀ (P : OpenParams) (key : List Byte),
    (keyWords P key).length = (key.length + 3) / 4 ∧
    ∀ g, g < (key.length + 3) / 4 →
      (keyWords P key)[g]? = some
        (((P.sboxB (P.sboxB (key.getD (4 * g + 3) 0))).setWidth 32 <<< 24) |||
          ((P.sboxA (P.sboxA (key.getD (4 * g + 1) 0))).setWidth 32 <<< 16) |||
          ((P.sboxB (P.sboxB (key.getD (4 * g + 2) 0))).setWidth 32 <<< 8) |||
          ((P.sboxA (P.sboxA (key.getD (4 * g) 0))).setWidth 32))

/-- R213: the chunks of `n` key words: ceil(n / 128) of them, chunk k holding min(128, n - 128k) words, the words from
128k on; none is empty. -/
def Obligations.ChunksCoverTheKeyWords : Prop :=
  ∀ (kb : List Word) (k : Nat), k < chunkCount kb.length →
    chunkCount kb.length = (kb.length + 127) / 128 ∧
    (chunkWords kb k).length = min 128 (kb.length - 128 * k) ∧ 1 ≤ (chunkWords kb k).length ∧
    ∀ p, p < (chunkWords kb k).length → (chunkWords kb k)[p]? = kb[128 * k + p]?

/-- R221: a key of at most 508 bytes takes no snapshot and leaves State all zero. -/
def Obligations.ShortKeysLeaveStateZero : Prop :=
  ∀ (P : OpenParams) (cfg : HwConfig) (key : List Byte), 1 ≤ key.length → key.length ≤ 508 →
    (keySchedule P cfg key).s = kZero ∧
    ((keySchedule P cfg key).k, (keySchedule P cfg key).ri) =
      pass P 0 (kBuild fun p => (keyWords P key).getD p.val 0)

/-- R219, R220: a key of 509 to 512 bytes takes one pass and one snapshot: every State word is the KDSB word with its
key word folded in, XOR first, then add. -/
def Obligations.OneChunkKeysSnapshotOnce : Prop :=
  ∀ (P : OpenParams) (cfg : HwConfig) (key : List Byte), 509 ≤ key.length → key.length ≤ 512 →
    ((keySchedule P cfg key).k, (keySchedule P cfg key).ri) =
      pass P 0 (kBuild fun p => (keyWords P key).getD p.val 0) ∧
    ∀ p : Fin 128, kRead (keySchedule P cfg key).s p =
      (kRead (keySchedule P cfg key).k p ^^^ ((keyWords P key).getD p.val 0 &&& 0xFFFF0000)) +
        ((keyWords P key).getD p.val 0 &&& 0x0000FFFF)

/-- R213 to R222: the key schedule of a key of any length is its chunks in rising order from K, S and RI zero; chunk 0 is
loaded as it is, a later chunk `k` is pre-mixed with State first; then pass and snapshot, under every setting of R7. -/
def Obligations.LaterChunksFeedBack : Prop :=
  ∀ (P : OpenParams) (cfg : HwConfig),
    (∀ key : List Byte, keySchedule P cfg key =
      (List.range (((keyWords P key).length + 127) / 128)).foldl
        (fun t k => scheduleChunk P cfg (keyWords P key) k t) ⟨kZero, kZero, 0, []⟩) ∧
    (∀ (kb : List Word) (t : Schedule), 1 ≤ kb.length →
      let m := min 128 kb.length
      let u := scheduleChunk P cfg kb 0 t
      (u.k, u.ri) = pass P (if cfg.riResetPerChunk then 0 else t.ri)
        (kBuild fun p => if p.val < m then kb.getD p.val 0 else kRead t.k p) ∧
      ∀ p : Fin 128, kRead u.s p =
        if kb.length < 128 then kRead t.s p
        else (kRead u.k p ^^^ (kb.getD p.val 0 &&& 0xFFFF0000)) + (kb.getD p.val 0 &&& 0x0000FFFF)) ∧
    ∀ (kb : List Word) (k : Nat) (t : Schedule), 1 ≤ k → k < chunkCount kb.length →
      let m := (chunkWords kb k).length
      let mixed := fun p : Fin 128 =>
        (kb.getD (128 * k + p.val) 0 + (kRead t.s p &&& 0xFFFF0000)) ^^^ (kRead t.s p &&& 0x0000FFFF)
      let u := scheduleChunk P cfg kb k t
      (u.k, u.ri) = pass P (if cfg.riResetPerChunk then 0 else t.ri)
        (kBuild fun p => if p.val < m then mixed p else kRead t.k p) ∧
      ∀ p : Fin 128, kRead u.s p =
        if p.val < m then
          let w := if cfg.snapshotKeyword = .original then kb.getD (128 * k + p.val) 0 else mixed p
          (kRead u.k p ^^^ (w &&& 0xFFFF0000)) + (w &&& 0x0000FFFF)
        else if cfg.snapshotTail = .copyKdsb then kRead u.k p else kRead t.s p

/-- R230: ZEROIZE, from every state and whatever LEN is, with its two words. -/
def Obligations.ZeroizeClearsItsContext : Prop :=
  ∀ s : State,
    exec .zeroize0 s = .next { s with
      bank0 := ⟨kZero, kZero, false⟩, ri := 0, busy := false, done := true, err := false, errcode := 0 } ∧
    exec .zeroize1 s = .next { s with
      bank1 := ⟨kZero, kZero, false⟩, ri := 0, busy := false, done := true, err := false, errcode := 0 } ∧
    (∀ i, kRead kZero i = 0) ∧ decode 0x00000005 = .ok .zeroize0 ∧ decode 0x00000015 = .ok .zeroize1

/-! ## KEYSTREAM (43_stream.md) -/

/-- R255, R254: KEYSTREAM advances context 1 by Generate and writes the first LEN bytes of the new State to BUF, byte
b being byte b % 4 of State word b / 4; KEYED_1, the rest of BUF and everything else are unchanged. -/
def Obligations.KeystreamAdvancesAndFillsBuf : Prop :=
  ∀ s : State, s.buf.wf = true → s.streamReady →
    let g := generate Config.openParams s.bank1.kdsb s.bank1.state
    ∃ m : Memory,
      exec .keystream s = .next { s with
        bank1 := ⟨g.k, g.s, s.bank1.keyed⟩, buf := m, ri := 0, busy := false, done := true, err := false,
        errcode := 0 } ∧ m.wf = true ∧
      (∀ b (h : b < 512), b < s.curLen.toNat →
        m.read b = ((kRead g.s ⟨b / 4, by omega⟩ >>> (8 * (b % 4))) &&& 0xFF).setWidth 8) ∧
      ∀ a, s.curLen.toNat ≤ a → m.read a = s.buf.read a

/-- R251, R252, R253: Generate runs the iterations 0 .. 127 in rising order from RI 0, with one RI threaded through;
one iteration folds State word i into K[i], runs one pass and folds K[i] back into State word i, and writes no other
State word. -/
def Obligations.GenerateFoldsAndPasses : Prop :=
  ∀ P : OpenParams,
    (∀ (K : Kdsb) (S : Words128), generate P K S =
      (List.range 128).foldl (fun t n => generateStep P (Fin.ofNat 128 n) t) ⟨K, S, 0⟩) ∧
    ∀ (i : Fin 128) (t : Generator),
      let k := kRead t.k i + (kRead t.s i &&& 0xFFFF0000) ^^^ (kRead t.s i &&& 0x0000FFFF)
      let u := generateStep P i t
      (u.k, u.ri) = pass P t.ri (kWrite t.k i k) ∧
      kRead u.s i = (kRead t.s i ^^^ (kRead u.k i &&& 0xFFFF0000)) + (kRead u.k i &&& 0x0000FFFF) ∧
      ∀ j, j ≠ i → kRead u.s j = kRead t.s j

/-- R255, R316, R317, R319: when KEYSTREAM ends in an error, which one, and nothing else changes. -/
def Obligations.KeystreamErrors : Prop :=
  ∀ s : State,
    (s.cfg.unkeyedPolicy = .failClosed → s.bank1.keyed = false →
      exec .keystream s = .next { s with err := true, errcode := 4, ri := 0, busy := false, done := true }) ∧
    ((s.cfg.unkeyedPolicy = .compatZero ∨ s.bank1.keyed = true) →
      (512 < s.curLen.toNat ∨ s.cfg.bufBytes < s.curLen.toNat) →
      exec .keystream s = .next { s with err := true, errcode := 3, ri := 0, busy := false, done := true })

/-- R256: re-keying restarts the keystream: after KEYSCHED.1 with the same key, from any two states, KEYSTREAM gives
the same bytes and leaves the same context. -/
def Obligations.RekeyedKeystreamRepeats : Prop :=
  ∀ (s t : State) (n : Word), s.buf.wf = true → t.buf.wf = true → s.keyReady → s.cfg = t.cfg → s.curLen = t.curLen →
    sameKey s.buf t.buf s.curLen.toNat → n.toNat ≤ 512 → n.toNat ≤ s.cfg.bufBytes →
    ∃ s1 s2 t1 t2, exec .keysched1 s = .next s1 ∧ exec .keystream { s1 with curLen := n } = .next s2 ∧
      exec .keysched1 t = .next t1 ∧ exec .keystream { t1 with curLen := n } = .next t2 ∧
      s2.err = false ∧ t2.err = false ∧ s2.bank1 = t2.bank1 ∧ ∀ b, b < n.toNat → s2.buf.read b = t2.buf.read b

/-! ## ENCRYPT and DECRYPT (44_block.md) -/

/-- R77, R74: block b is the 8 words 8b .. 8b+7 of BUF in the order A .. H, each little-endian. -/
def Obligations.BlocksLieLittleEndianInBuf : Prop :=
  ∀ (m : Memory) (b : Nat),
    let word := fun w : Nat => (m.read (4 * w)).toNat + 2 ^ 8 * (m.read (4 * w + 1)).toNat +
      2 ^ 16 * (m.read (4 * w + 2)).toNat + 2 ^ 24 * (m.read (4 * w + 3)).toNat
    let x := readBlock m b
    x.a.toNat = word (8 * b) ∧ x.b.toNat = word (8 * b + 1) ∧ x.c.toNat = word (8 * b + 2) ∧
    x.d.toNat = word (8 * b + 3) ∧ x.e.toNat = word (8 * b + 4) ∧ x.f.toNat = word (8 * b + 5) ∧
    x.g.toNat = word (8 * b + 6) ∧ x.h.toNat = word (8 * b + 7)

/-- R285, R271, R270: ENCRYPT replaces every block of the data by its encryption under KDSB_0, in place, each on its
own; the rest of BUF and everything else, the contexts among it, are unchanged. -/
def Obligations.EncryptReplacesEveryBlock : Prop :=
  ∀ s : State, s.buf.wf = true → s.blockReady →
    ∃ m : Memory,
      exec .encrypt s = .next { s with
        buf := m, ri := 0, busy := false, done := true, err := false, errcode := 0 } ∧ m.wf = true ∧
      (∀ b, b < s.curLen.toNat / 8 → readBlock m b = encryptBlock s.bank0.kdsb (readBlock s.buf b)) ∧
      ∀ a, 4 * s.curLen.toNat ≤ a → m.read a = s.buf.read a

/-- R286, R271, R270: DECRYPT, as ENCRYPT with the block decryption. -/
def Obligations.DecryptReplacesEveryBlock : Prop :=
  ∀ s : State, s.buf.wf = true → s.blockReady →
    ∃ m : Memory,
      exec .decrypt s = .next { s with
        buf := m, ri := 0, busy := false, done := true, err := false, errcode := 0 } ∧ m.wf = true ∧
      (∀ b, b < s.curLen.toNat / 8 → readBlock m b = decryptBlock s.bank0.kdsb (readBlock s.buf b)) ∧
      ∀ a, 4 * s.curLen.toNat ≤ a → m.read a = s.buf.read a

/-- R316, R317, R318, R319: which error a block command reports when several apply: UNKEYED, then ALIGN, then LENGTH;
nothing else changes. -/
def Obligations.BlockErrorsInOrder : Prop :=
  ∀ (s : State) (i : Instr), i ∈ [Instr.encrypt, .decrypt] →
    (s.cfg.unkeyedPolicy = .failClosed → s.bank0.keyed = false →
      exec i s = .next { s with err := true, errcode := 4, ri := 0, busy := false, done := true }) ∧
    ((s.cfg.unkeyedPolicy = .compatZero ∨ s.bank0.keyed = true) →
      (s.curLen.toNat % 8 ≠ 0 →
        exec i s = .next { s with err := true, errcode := 2, ri := 0, busy := false, done := true }) ∧
      (s.curLen.toNat % 8 = 0 → s.cfg.bufBytes / 4 < s.curLen.toNat →
        exec i s = .next { s with err := true, errcode := 3, ri := 0, busy := false, done := true }))

/-- R275, R276, R281, R282: P and the PHT are undone by their inverses, P is no involution, and P four times is the
identity. -/
def Obligations.PermutationAndPhtInvert : Prop :=
  (∀ x : Block, unpermute (permute x) = x ∧ permute (unpermute x) = x ∧
    permute (permute (permute (permute x))) = x ∧ unpht (pht x) = x ∧ pht (unpht x) = x) ∧
  (∃ x : Block, permute (permute x) ≠ x) ∧
  permute ⟨1, 2, 3, 4, 5, 6, 7, 8⟩ = ⟨5, 3, 8, 2, 7, 1, 6, 4⟩

/-- R287: DecryptBlock and EncryptBlock are inverse to each other for every KDSB and every block, and DECRYPT after
ENCRYPT over the same words of BUF restores BUF, byte for byte and as data. -/
def Obligations.DecryptInvertsEncrypt : Prop :=
  (∀ (K : Kdsb) (x : Block), decryptBlock K (encryptBlock K x) = x ∧ encryptBlock K (decryptBlock K x) = x) ∧
  ∀ s : State, s.buf.wf = true → s.blockReady →
    ∃ t u, exec .encrypt s = .next t ∧ exec .decrypt t = .next u ∧ (∀ a, u.buf.read a = s.buf.read a) ∧
      u.buf = s.buf ∧ u.bank0 = s.bank0 ∧ u.err = false

/-- R289: the two halves of a block never mix: words A, B, G, H of EncryptBlock and DecryptBlock depend on the input's
A, B, G, H (and K) alone, words C, D, E, F on its C, D, E, F alone. -/
def Obligations.BlockHalvesNeverMix : Prop :=
  ∀ (K : Kdsb) (x y : Block),
    (x.a = y.a → x.b = y.b → x.g = y.g → x.h = y.h →
      ((encryptBlock K x).a = (encryptBlock K y).a ∧ (encryptBlock K x).b = (encryptBlock K y).b ∧
        (encryptBlock K x).g = (encryptBlock K y).g ∧ (encryptBlock K x).h = (encryptBlock K y).h) ∧
      ((decryptBlock K x).a = (decryptBlock K y).a ∧ (decryptBlock K x).b = (decryptBlock K y).b ∧
        (decryptBlock K x).g = (decryptBlock K y).g ∧ (decryptBlock K x).h = (decryptBlock K y).h)) ∧
    (x.c = y.c → x.d = y.d → x.e = y.e → x.f = y.f →
      ((encryptBlock K x).c = (encryptBlock K y).c ∧ (encryptBlock K x).d = (encryptBlock K y).d ∧
        (encryptBlock K x).e = (encryptBlock K y).e ∧ (encryptBlock K x).f = (encryptBlock K y).f) ∧
      ((decryptBlock K x).c = (decryptBlock K y).c ∧ (decryptBlock K x).d = (decryptBlock K y).d ∧
        (decryptBlock K x).e = (decryptBlock K y).e ∧ (decryptBlock K x).f = (decryptBlock K y).f))

/-- R277: one encryption round from its formulas alone. -/
def Obligations.EncryptionRoundFormula : Prop :=
  ∀ (K : Kdsb) (j : Fin 63) (x : Block), 1 ≤ j.val →
    let k := fun n : Nat => kRead K (Fin.ofNat 128 n)
    let t := x.b ^^^ ((x.b <<< 1) + 1)
    let u := x.d ^^^ ((x.d <<< 2) + 1)
    let v := x.f ^^^ ((x.f <<< 3) + 1)
    let w := x.h ^^^ ((x.h <<< 4) + 1)
    let a := (x.a - t).rotateRight (w.toNat % 32) + k (2 * j.val)
    let c := (x.c ^^^ u).rotateRight (v.toNat % 32) + k (2 * j.val + 1)
    let e := (x.e ^^^ v).rotateRight (u.toNat % 32) + k (2 * j.val + 2)
    let g := (x.g + w).rotateRight (t.toNat % 32) + k (2 * j.val + 3)
    let b := x.b + k j.val
    let d := x.d ^^^ k (j.val + 1)
    let f := x.f ^^^ k (j.val + 2)
    let h := x.h - k (j.val + 3)
    encRound K j.val x = ⟨e + c, e + 2 * c, h + b, h + 2 * b, g + a, g + 2 * a, f + d, f + 2 * d⟩

/-- R283: one decryption round from its formulas alone. -/
def Obligations.DecryptionRoundFormula : Prop :=
  ∀ (K : Kdsb) (j : Fin 63) (x : Block), 1 ≤ j.val →
    let k := fun n : Nat => kRead K (Fin.ofNat 128 n)
    let b := x.d - x.c - k j.val
    let d := (x.h - x.g) ^^^ k (j.val + 1)
    let f := (2 * x.g - x.h) ^^^ k (j.val + 2)
    let h := 2 * x.c - x.d + k (j.val + 3)
    let t := b ^^^ ((b <<< 1) + 1)
    let u := d ^^^ ((d <<< 2) + 1)
    let v := f ^^^ ((f <<< 3) + 1)
    let w := h ^^^ ((h <<< 4) + 1)
    decRound K j.val x =
      ⟨(x.f - x.e - k (2 * j.val)).rotateLeft (w.toNat % 32) + t, b,
        (x.b - x.a - k (2 * j.val + 1)).rotateLeft (v.toNat % 32) ^^^ u, d,
        (2 * x.a - x.b - k (2 * j.val + 2)).rotateLeft (u.toNat % 32) ^^^ v, f,
        (2 * x.e - x.f - k (2 * j.val + 3)).rotateLeft (t.toNat % 32) - w, h⟩

/-- R278, R279, R280, R284: the block functions: the whitenings around the rounds 1 to 62, in rising order for
EncryptBlock and in falling order for DecryptBlock; the example of R280. -/
def Obligations.BlockFunctionsAreWhitenedRounds : Prop :=
  (∀ (K : Kdsb) (x : Block),
    let k := fun n : Nat => kRead K (Fin.ofNat 128 n)
    let y := (List.range 62).foldl (fun z n => encRound K (n + 1) z)
      ⟨x.a, x.b + k 0, x.c, x.d + k 1, x.e, x.f + k 2, x.g, x.h + k 3⟩
    encryptBlock K x = ⟨y.a + k 124, y.b, y.c + k 125, y.d, y.e + k 126, y.f, y.g + k 127, y.h⟩) ∧
  (∀ (K : Kdsb) (x : Block),
    let k := fun n : Nat => kRead K (Fin.ofNat 128 n)
    let y := (List.range 62).foldl (fun z n => decRound K (62 - n) z)
      ⟨x.a - k 124, x.b, x.c - k 125, x.d, x.e - k 126, x.f, x.g - k 127, x.h⟩
    decryptBlock K x = ⟨y.a, y.b - k 0, y.c, y.d - k 1, y.e, y.f - k 2, y.g, y.h - k 3⟩) ∧
  encryptBlock kZero ⟨0, 0, 0, 0, 0, 0, 0, 0⟩ =
    ⟨0x102C346B, 0xE9AE4888, 0x2431D361, 0x56FBBE2B, 0x4FA38D15, 0x7CCA71C3, 0x27A6F829, 0xA1AE95CF⟩

/-! ## Primitives and mixing (40_primitives.md, 41_mixing.md) -/

/-- R142, R143: L and L2 are their XORs of rotations, are linear over XOR, and keep 0 and the all-ones word. -/
def Obligations.DiffusionIsLinear : Prop :=
  ∀ x y : Word,
    diffuseL x = x ^^^ x.rotateLeft 2 ^^^ x.rotateLeft 10 ^^^ x.rotateLeft 18 ^^^ x.rotateLeft 24 ∧
    diffuseL2 x = x ^^^ x.rotateLeft 13 ^^^ x.rotateLeft 23 ∧
    diffuseL (x ^^^ y) = diffuseL x ^^^ diffuseL y ∧ diffuseL2 (x ^^^ y) = diffuseL2 x ^^^ diffuseL2 y ∧
    diffuseL 0 = 0 ∧ diffuseL2 0 = 0 ∧ diffuseL 0xFFFFFFFF = 0xFFFFFFFF ∧ diffuseL2 0xFFFFFFFF = 0xFFFFFFFF ∧
    diffuseL 1 = 0x01040405 ∧ diffuseL2 1 = 0x00802001

/-- R144, R145, R146: FF and GG at size 128, bit by bit: XOR at the indexes 0 .. 95; majority and choose at 96 and
above. -/
def Obligations.SelectorsBitByBit : Prop :=
  ∀ (A B C : Word) (index i : Nat), i < 32 →
    (index < 96 →
      (selectFF A B C index 128).getLsbD i = (A.getLsbD i ^^ B.getLsbD i ^^ C.getLsbD i) ∧
      (selectGG A B C index 128).getLsbD i = (A.getLsbD i ^^ B.getLsbD i ^^ C.getLsbD i)) ∧
    (96 ≤ index →
      ((selectFF A B C index 128).getLsbD i = true ↔
        2 ≤ (A.getLsbD i).toNat + (B.getLsbD i).toNat + (C.getLsbD i).toNat) ∧
      (selectGG A B C index 128).getLsbD i = if A.getLsbD i then B.getLsbD i else C.getLsbD i)

/-- R147, R148: the NLFSR is 64 rounds; a round shifts right by one and puts NLFSR_F of the taps, XOR bit 16, XOR bit 0, all
read before the shift, into bit 31; and the NLFSR is a permutation of the 32-bit words, whatever `NLFSR_F` is. -/
def Obligations.NlfsrIsAPermutation : Prop :=
  ∀ P : OpenParams,
    (∀ r : Word, nlfsr P r = (List.range 64).foldl (fun x _ => nlfsrRound P x) r) ∧
    (∀ (r : Word) (i : Nat), i < 31 → (nlfsrRound P r).getLsbD i = r.getLsbD (i + 1)) ∧
    (∀ r : Word, (nlfsrRound P r).getLsbD 31 =
      (P.nlfsrF (r.getLsbD 31) (r.getLsbD 28) (r.getLsbD 23) (r.getLsbD 17) (r.getLsbD 13) (r.getLsbD 4)
        (r.getLsbD 1) ^^ (r.getLsbD 16 ^^ r.getLsbD 0))) ∧
    (∀ x y, nlfsr P x = nlfsr P y → x = y) ∧ ∀ y, ∃ x, nlfsr P x = y

/-- R183, R184: RandomAccessMix writes only K[c], with the fold of `K[c] ^ K[pos]` (0 when pos = c), and returns RI
unchanged. -/
def Obligations.RandomAccessMixWritesOneWord : Prop :=
  ∀ (P : OpenParams) (c : Fin 128) (ri : RandomIndex) (K : Kdsb),
    let pos : Fin 128 := ⟨ri.toNat % 128, Nat.mod_lt _ (by decide)⟩
    let m := randomAccessMix P c ri K
    m.2 = ri ∧ (∀ i, i ≠ c → kRead m.1 i = kRead K i) ∧
    kRead m.1 c = P.ramFold (kRead K c ^^^ kRead K pos) (P.magic (Fin.ofNat 4 pos.val)) c pos ri ∧
    (pos = c → kRead m.1 c = P.ramFold 0 (P.magic (Fin.ofNat 4 pos.val)) c pos ri)

/-- R185 to R189: ComplexMix: RI through the NLFSR half by half, then K[c] from the words before it, the indexes
wrapped, then the tail; before the tail only K[c] is written. -/
def Obligations.ComplexMixStepsOneToFour : Prop :=
  ∀ (P : OpenParams) (c : Fin 128) (ri : RandomIndex) (K : Kdsb),
    ∃ (K' : Kdsb) (ri' : RandomIndex),
      complexMix P c ri K = P.cmTail c ri' K' ∧
      ri'.extractLsb' 32 32 = nlfsr P (ri.extractLsb' 32 32) ∧ ri'.extractLsb' 0 32 = nlfsr P (ri.extractLsb' 0 32) ∧
      (∀ i, i ≠ c → kRead K' i = kRead K i) ∧
      let k1 := kRead K ⟨(c.val + 127) % 128, Nat.mod_lt _ (by decide)⟩
      let k2 := kRead K ⟨(c.val + 126) % 128, Nat.mod_lt _ (by decide)⟩
      let k3 := kRead K ⟨(c.val + 125) % 128, Nat.mod_lt _ (by decide)⟩
      kRead K' c = (kRead K c ^^^ (k2 ^^^ k1)) +
        selectGG (BitVec.ofNat 32 c.val) k1 (ri'.extractLsb' 0 32) c.val 128 -
        selectFF k3 (diffuseL k2) k1 c.val 128

/-- R182, R188, R190: with the INFERRED footprints as premises, the round operator at counter c writes at most K[c],
K[c+1] and K[c+2], indexes modulo 128; and MixWithAddSubtract does the same whatever another word than K[c] and K[c+1]
holds, and leaves that word alone. -/
def Obligations.RoundOpFootprint : Prop :=
  ∀ P : OpenParams, OpenParamsMixFootprint P →
    (OpenParamsTailFootprint P →
      ∀ (c : Fin 128) (ri : RandomIndex) (K : Kdsb) (i : Fin 128),
        i ≠ c → i.val ≠ (c.val + 1) % 128 → i.val ≠ (c.val + 2) % 128 →
        kRead (roundOp P c ri K).1 i = kRead K i) ∧
    (OpenParamsMixReads P →
      ∀ (c : Fin 128) (ri : RandomIndex) (K : Kdsb) (i : Fin 128) (v : Word),
        i ≠ c → i.val ≠ (c.val + 1) % 128 →
        mixWithAddSubtract P c ri (kWrite K i v) =
          (kWrite (mixWithAddSubtract P c ri K).1 i v, (mixWithAddSubtract P c ri K).2))

/-- R181, R190, R191, R192: the round operator is MixWithAddSubtract, which is MIX_AS, then RandomAccessMix, then ComplexMix,
K and RI threaded through; a pass is 512 applications of it, at the counters 0 .. 127 four times over, with one RI
threaded through. -/
def Obligations.PassIs512RoundOps : Prop :=
  ∀ (P : OpenParams) (ri : RandomIndex) (K : Kdsb),
    (∀ c : Fin 128,
      let m := P.mixAS c ri K
      let r := randomAccessMix P c m.2 m.1
      roundOp P c ri K = complexMix P c r.2 r.1) ∧
    pass P ri K = (List.range 512).foldl (fun m n => roundOp P (Fin.ofNat 128 n) m.2 m.1) (K, ri)
end

