-- ==== Sys2Proof/Laws/Words.lean ====
section
/-! SUPPORT. Laws of the 128-word arrays (R11, R12) and of the rotations (R10). -/

namespace Sys2Proof.Machine

@[simp] theorem kRead_kWrite_same (K : Words128) (i : Fin 128) (v : Word) : kRead (kWrite K i v) i = v := by
  simp [kRead, kWrite]

@[simp] theorem kRead_kWrite_other (K : Words128) {i j : Fin 128} (v : Word) (h : j ≠ i) :
    kRead (kWrite K i v) j = kRead K j := by
  have : i.val ≠ j.val := fun e => h (Fin.ext e.symm)
  simp [kRead, kWrite, this]

@[simp] theorem kRead_kBuild (f : Fin 128 → Word) (i : Fin 128) : kRead (kBuild f) i = f i := by
  simp [kRead, kBuild]

@[simp] theorem kRead_kZero (i : Fin 128) : kRead kZero i = 0 := by
  simp [kRead, kZero]

/-- Arrays that read alike are equal. -/
theorem words_ext {K L : Words128} (h : ∀ i, kRead K i = kRead L i) : K = L := by
  apply Vector.ext
  intro i hi
  exact h ⟨i, hi⟩

/-- An array listed and read at a position. -/
theorem getD_toList_eq_kRead (K : Words128) (p : Fin 128) : K.toList[p.val]? = some (kRead K p) := by
  simp [kRead, p.isLt]

@[simp] theorem idx_one (c : Fin 128) : (idx c 1).val = (c.val + 1) % 128 := by
  have := c.isLt
  simp only [idx, Fin.ofNat]
  omega

@[simp] theorem idx_two (c : Fin 128) : (idx c 2).val = (c.val + 2) % 128 := by
  have := c.isLt
  simp only [idx, Fin.ofNat]
  omega

@[simp] theorem idx_neg_one (c : Fin 128) : (idx c (-1)).val = (c.val + 127) % 128 := by
  have := c.isLt
  simp only [idx, Fin.ofNat]
  omega

@[simp] theorem idx_neg_two (c : Fin 128) : (idx c (-2)).val = (c.val + 126) % 128 := by
  have := c.isLt
  simp only [idx, Fin.ofNat]
  omega

@[simp] theorem idx_neg_three (c : Fin 128) : (idx c (-3)).val = (c.val + 125) % 128 := by
  have := c.isLt
  simp only [idx, Fin.ofNat]
  omega

theorem idx_neg_one_ne (c : Fin 128) : idx c (-1) ≠ c := fun h => by
  have := congrArg Fin.val h; have := c.isLt; rw [idx_neg_one] at *; omega

theorem idx_neg_two_ne (c : Fin 128) : idx c (-2) ≠ c := fun h => by
  have := congrArg Fin.val h; have := c.isLt; rw [idx_neg_two] at *; omega

theorem idx_neg_three_ne (c : Fin 128) : idx c (-3) ≠ c := fun h => by
  have := congrArg Fin.val h; have := c.isLt; rw [idx_neg_three] at *; omega

/-! ## Rotations -/

/-- R10's rotation, bit by bit. -/
theorem getLsbD_rotl (x : Word) (n i : Nat) (hi : i < 32) :
    (rotl x n).getLsbD i = x.getLsbD ((i + 32 - n % 32) % 32) := by
  have hn : n % 32 < 32 := Nat.mod_lt _ (by decide)
  simp only [rotl, BitVec.getLsbD_or, BitVec.getLsbD_shiftLeft, BitVec.getLsbD_ushiftRight, hi, decide_true,
    Bool.true_and]
  by_cases h0 : n % 32 = 0
  · have e : (i + 32 - n % 32) % 32 = i := by omega
    rw [e]; simp [h0]
  · have e : (32 - n % 32) % 32 = 32 - n % 32 := by omega
    rw [e]
    by_cases hlt : i < n % 32
    · have e2 : (i + 32 - n % 32) % 32 = 32 - n % 32 + i := by omega
      simp [hlt, e2]
    · have e2 : (i + 32 - n % 32) % 32 = i - n % 32 := by omega
      have e3 : x.getLsbD (32 - n % 32 + i) = false := BitVec.getLsbD_of_ge _ _ (by omega)
      simp [hlt, e2, e3]

/-- R10's rotation to the right, bit by bit. -/
theorem getLsbD_rotr (x : Word) (n i : Nat) (hi : i < 32) :
    (rotr x n).getLsbD i = x.getLsbD ((i + n % 32) % 32) := by
  have hn : n % 32 < 32 := Nat.mod_lt _ (by decide)
  simp only [rotr, BitVec.getLsbD_or, BitVec.getLsbD_shiftLeft, BitVec.getLsbD_ushiftRight, hi, decide_true,
    Bool.true_and]
  by_cases h0 : n % 32 = 0
  · have e : (i + n % 32) % 32 = i := by omega
    rw [e]; simp [h0]
  · have e : (32 - n % 32) % 32 = 32 - n % 32 := by omega
    rw [e]
    by_cases hlt : i < 32 - n % 32
    · have e2 : (i + n % 32) % 32 = n % 32 + i := by omega
      simp [hlt, e2]
    · have e2 : (i + n % 32) % 32 = i - (32 - n % 32) := by omega
      have e3 : x.getLsbD (n % 32 + i) = false := BitVec.getLsbD_of_ge _ _ (by omega)
      simp [hlt, e2, e3]

/-- A rotation to the left undoes the rotation to the right. -/
@[simp] theorem rotl_rotr (x : Word) (n : Nat) : rotl (rotr x n) n = x := by
  apply BitVec.eq_of_getLsbD_eq
  intro i hi
  have hn : n % 32 < 32 := Nat.mod_lt _ (by decide)
  rw [getLsbD_rotl _ _ _ hi, getLsbD_rotr _ _ _ (Nat.mod_lt _ (by decide))]
  congr 1
  omega

/-- A rotation to the right undoes the rotation to the left. -/
@[simp] theorem rotr_rotl (x : Word) (n : Nat) : rotr (rotl x n) n = x := by
  apply BitVec.eq_of_getLsbD_eq
  intro i hi
  have hn : n % 32 < 32 := Nat.mod_lt _ (by decide)
  rw [getLsbD_rotr _ _ _ hi, getLsbD_rotl _ _ _ (Nat.mod_lt _ (by decide))]
  congr 1
  omega

/-- R10's rotations are those of bit vectors, the amount modulo 32. -/
theorem rotr_eq_rotateRight (x : Word) (n : Nat) : rotr x n = x.rotateRight (n % 32) := by
  apply BitVec.eq_of_getLsbD_eq; intro i hi
  have hn : n % 32 < 32 := Nat.mod_lt _ (by decide)
  rw [getLsbD_rotr _ _ _ hi, BitVec.getLsbD_rotateRight]
  simp only [Nat.mod_eq_of_lt hn]
  by_cases h : i < 32 - n % 32
  · simp [h, show (i + n % 32) % 32 = n % 32 + i by omega]
  · simp [h, hi, show (i + n % 32) % 32 = i - (32 - n % 32) by omega]

theorem rotl_eq_rotateLeft (x : Word) (n : Nat) : rotl x n = x.rotateLeft (n % 32) := by
  apply BitVec.eq_of_getLsbD_eq; intro i hi
  have hn : n % 32 < 32 := Nat.mod_lt _ (by decide)
  rw [getLsbD_rotl _ _ _ hi, BitVec.getLsbD_rotateLeft]
  simp only [Nat.mod_eq_of_lt hn]
  by_cases h : i < n % 32
  · simp [h, show (i + 32 - n % 32) % 32 = 32 - n % 32 + i by omega]
  · simp [h, hi, show (i + 32 - n % 32) % 32 = i - n % 32 by omega]

/-- A rotation distributes over XOR. -/
theorem rotl_xor (x y : Word) (n : Nat) : rotl (x ^^^ y) n = rotl x n ^^^ rotl y n := by
  apply BitVec.eq_of_getLsbD_eq
  intro i hi
  rw [BitVec.getLsbD_xor, getLsbD_rotl _ _ _ hi, getLsbD_rotl _ _ _ hi, getLsbD_rotl _ _ _ hi, BitVec.getLsbD_xor]

/-! ## Sums and differences modulo 2^32 (R9) -/

@[simp] theorem word_add_sub (x y : Word) : x + y - y = x := by bv_omega

@[simp] theorem word_sub_add (x y : Word) : x - y + y = x := by bv_omega

/-! ## Halves of RI -/

@[simp] theorem hi32_join64 (a b : Word) : hi32 (join64 a b) = a := by
  apply BitVec.eq_of_getLsbD_eq
  intro i hi
  simp only [hi32, join64, BitVec.getLsbD_extractLsb', BitVec.getLsbD_append]
  have : ¬ 32 + i < 32 := by omega
  simp [this, hi]

@[simp] theorem lo32_join64 (a b : Word) : lo32 (join64 a b) = b := by
  apply BitVec.eq_of_getLsbD_eq
  intro i hi
  simp only [lo32, join64, BitVec.getLsbD_extractLsb', Nat.zero_add, BitVec.getLsbD_append, hi, decide_true,
    if_true, Bool.true_and]

end Sys2Proof.Machine
end

