-- ==== Sys2Proof/Laws/Block.lean ====
section
/-! SUPPORT. The parts of a block round undo one another (R281 to R283). -/

namespace Sys2Proof.Machine

theorem encryptBlock_eq (K : Kdsb) (x : Block) :
    encryptBlock K x = whitenOut K (encRounds K 62 (whitenIn K x)) := by unfold encryptBlock; rfl

theorem decryptBlock_eq (K : Kdsb) (x : Block) :
    decryptBlock K x = unwhitenIn K (decRounds K 62 (unwhitenOut K x)) := by unfold decryptBlock; rfl

@[simp] theorem unkeyedMix_keyedMix (K : Kdsb) (j : Nat) (x : Block) : unkeyedMix K j (keyedMix K j x) = x := by
  cases x; simp [unkeyedMix, keyedMix, BitVec.xor_assoc]

@[simp] theorem keyedMix_unkeyedMix (K : Kdsb) (j : Nat) (x : Block) : keyedMix K j (unkeyedMix K j x) = x := by
  cases x; simp [unkeyedMix, keyedMix, BitVec.xor_assoc]

@[simp] theorem unlanes_lanes (K : Kdsb) (j : Nat) (x : Block) : unlanes K j (lanes K j x) = x := by
  cases x; simp [unlanes, lanes, tapT, tapU, tapV, tapW, BitVec.xor_assoc]

@[simp] theorem lanes_unlanes (K : Kdsb) (j : Nat) (x : Block) : lanes K j (unlanes K j x) = x := by
  cases x; simp [unlanes, lanes, tapT, tapU, tapV, tapW, BitVec.xor_assoc]

@[simp] theorem unwhitenOut_whitenOut (K : Kdsb) (x : Block) : unwhitenOut K (whitenOut K x) = x := by
  cases x; simp [unwhitenOut, whitenOut]

@[simp] theorem whitenOut_unwhitenOut (K : Kdsb) (x : Block) : whitenOut K (unwhitenOut K x) = x := by
  cases x; simp [unwhitenOut, whitenOut]

@[simp] theorem unwhitenIn_whitenIn (K : Kdsb) (x : Block) : unwhitenIn K (whitenIn K x) = x := by
  cases x; simp [unwhitenIn, whitenIn]

@[simp] theorem whitenIn_unwhitenIn (K : Kdsb) (x : Block) : whitenIn K (unwhitenIn K x) = x := by
  cases x; simp [unwhitenIn, whitenIn]

end Sys2Proof.Machine
end

