-- ==== Sys2Proof/Laws/Memory.lean ====
section
/-! SUPPORT. Laws of BUF: every operation keeps the canonical form, reads see the last write, canonical memories that
read alike are equal. -/

namespace Sys2Proof.Machine

/-! ## One byte -/

theorem Memory.wfFrom_mono {lo lo' : Nat} {m : Memory} (h : lo' ≤ lo) (w : m.wfFrom lo = true) :
    m.wfFrom lo' = true := by
  cases m with
  | nil => rfl
  | cons c m =>
    obtain ⟨k, v⟩ := c
    simp only [Memory.wfFrom, Bool.and_eq_true, decide_eq_true_eq] at w ⊢
    exact ⟨⟨by omega, w.1.2⟩, w.2⟩

/-- Below its first key a memory reads as unlisted. -/
theorem Memory.read_below {lo : Nat} {m : Memory} (w : m.wfFrom lo = true) {a : Nat} (h : a < lo) :
    m.read a = Memory.unlisted := by
  cases m with
  | nil => rfl
  | cons c m =>
    obtain ⟨k, v⟩ := c
    simp only [Memory.wfFrom, Bool.and_eq_true, decide_eq_true_eq] at w
    have : a < k := by omega
    simp [Memory.read, this]

theorem Memory.wfFrom_write {lo : Nat} {m : Memory} (w : m.wfFrom lo = true) {a : Nat} (h : lo ≤ a) (v : Byte) :
    (m.write a v).wfFrom lo = true := by
  induction m generalizing lo with
  | nil =>
    simp only [Memory.write]
    split
    · rfl
    · simp_all [Memory.wfFrom]
  | cons c m ih =>
    obtain ⟨k, u⟩ := c
    have w' := w
    simp only [Memory.wfFrom, Bool.and_eq_true, decide_eq_true_eq] at w
    simp only [Memory.write]
    split
    · split
      · exact w'
      · rename_i hak hv
        simp only [Memory.wfFrom, Bool.and_eq_true, decide_eq_true_eq]
        exact ⟨⟨h, by simpa using hv⟩, ⟨by omega, w.1.2⟩, w.2⟩
    · split
      · split
        · exact Memory.wfFrom_mono (by omega) w.2
        · rename_i hak e hv
          simp only [Memory.wfFrom, Bool.and_eq_true, decide_eq_true_eq]
          exact ⟨⟨w.1.1, by simpa using hv⟩, w.2⟩
      · simp only [Memory.wfFrom, Bool.and_eq_true, decide_eq_true_eq]
        exact ⟨w.1, ih w.2 (by omega)⟩

/-- A write keeps the canonical form. -/
@[simp] theorem Memory.wf_write {m : Memory} (w : m.wf = true) (a : Nat) (v : Byte) : (m.write a v).wf = true :=
  Memory.wfFrom_write w (Nat.zero_le a) v

/-- What a byte reads as after a write: the value written there, every other byte as before. -/
theorem Memory.read_write {lo : Nat} {m : Memory} (w : m.wfFrom lo = true) (a : Nat) (v : Byte) (b : Nat) :
    (m.write a v).read b = if b = a then v else m.read b := by
  induction m generalizing lo with
  | nil =>
    simp only [Memory.write]
    by_cases hv : v = Memory.unlisted
    · simp [hv, Memory.read]
    · simp only [hv, if_false, Memory.read]
      by_cases h1 : b < a
      · simp [h1, Nat.ne_of_lt h1]
      · simp [h1]
  | cons c m ih =>
    obtain ⟨k, u⟩ := c
    simp only [Memory.wfFrom, Bool.and_eq_true, decide_eq_true_eq] at w
    simp only [Memory.write]
    by_cases h1 : a < k
    · rw [if_pos h1]
      by_cases hv : v = Memory.unlisted
      · rw [if_pos hv]
        by_cases hb : b = a
        · subst hb; simp [Memory.read, h1, hv]
        · simp [hb]
      · rw [if_neg hv]
        simp only [Memory.read]
        by_cases hb : b < a
        · have : b < k := by omega
          simp [hb, this, Nat.ne_of_lt hb]
        · by_cases hb' : b = a <;> simp [hb, hb']
    · rw [if_neg h1]
      by_cases h2 : a = k
      · rw [if_pos h2]
        subst h2
        by_cases hv : v = Memory.unlisted
        · rw [if_pos hv]
          by_cases hb : b = a
          · subst hb; simp [hv, Memory.read_below w.2 (Nat.lt_succ_self b)]
          · by_cases hlt : b < a
            · simp [hb, Memory.read, hlt, Memory.read_below w.2 (Nat.lt_succ_of_lt hlt)]
            · simp [hb, Memory.read, hlt]
        · rw [if_neg hv]
          by_cases hb : b = a
          · subst hb; simp [Memory.read]
          · simp [Memory.read, hb]
      · rw [if_neg h2]
        simp only [Memory.read]
        by_cases hlt : b < k
        · have : b ≠ a := by omega
          simp [hlt, this]
        · by_cases hbk : b = k
          · have : b ≠ a := by omega
            simp [hbk]; omega
          · simp only [hlt, hbk, if_false]
            exact ih w.2

@[simp] theorem Memory.read_write_same {m : Memory} (w : m.wf = true) (a : Nat) (v : Byte) :
    (m.write a v).read a = v := by
  rw [Memory.read_write w]; simp

theorem Memory.read_write_other {m : Memory} (w : m.wf = true) {a b : Nat} (v : Byte) (h : b ≠ a) :
    (m.write a v).read b = m.read b := by
  rw [Memory.read_write w]; simp [h]

theorem Memory.eq_of_read_eq_from {lo : Nat} {m n : Memory} (wm : m.wfFrom lo = true) (wn : n.wfFrom lo = true)
    (h : ∀ a, m.read a = n.read a) : m = n := by
  induction m generalizing lo n with
  | nil =>
    cases n with
    | nil => rfl
    | cons d n =>
      obtain ⟨k, v⟩ := d
      simp only [Memory.wfFrom, Bool.and_eq_true] at wn
      have := h k
      simp [Memory.read] at this
      simp [← this] at wn
  | cons c m ih =>
    obtain ⟨j, u⟩ := c
    simp only [Memory.wfFrom, Bool.and_eq_true, decide_eq_true_eq] at wm
    cases n with
    | nil =>
      have := h j
      simp [Memory.read] at this
      simp [this] at wm
    | cons d n =>
      obtain ⟨k, v⟩ := d
      simp only [Memory.wfFrom, Bool.and_eq_true, decide_eq_true_eq] at wn
      have hjk : j = k := by
        rcases Nat.lt_trichotomy j k with hl | he | hg
        · have := h j
          simp [Memory.read, hl] at this
          simp [this] at wm
        · exact he
        · have := h k
          simp [Memory.read, hg] at this
          simp [← this] at wn
      subst hjk
      have huv : u = v := by have := h j; simpa [Memory.read] using this
      subst huv
      rw [ih wm.2 wn.2]
      intro a
      by_cases hl : a < j + 1
      · rw [Memory.read_below wm.2 hl, Memory.read_below wn.2 hl]
      · have := h a
        have h1 : ¬ a < j := by omega
        have h2 : a ≠ j := by omega
        simpa [Memory.read, h1, h2] using this

/-- Canonical memories that read alike are equal. -/
theorem Memory.eq_of_read_eq {m n : Memory} (wm : m.wf = true) (wn : n.wf = true) (h : ∀ a, m.read a = n.read a) :
    m = n := Memory.eq_of_read_eq_from wm wn h

/-- A write below `n` lists nothing from `n` on. -/
theorem Memory.below_write {n : Nat} {m : Memory} (w : m.below n = true) {a : Nat} (h : a < n) (v : Byte) :
    (m.write a v).below n = true := by
  induction m with
  | nil =>
    simp only [Memory.write]
    split <;> simp [Memory.below, h]
  | cons c m ih =>
    obtain ⟨k, u⟩ := c
    have w' := w
    simp only [Memory.below, List.all_cons, Bool.and_eq_true, decide_eq_true_eq] at w ih
    simp only [Memory.write]
    split
    · split
      · exact w'
      · simp only [Memory.below, List.all_cons, Bool.and_eq_true, decide_eq_true_eq]
        exact ⟨h, w⟩
    · split
      · split
        · exact w.2
        · simp only [Memory.below, List.all_cons, Bool.and_eq_true, decide_eq_true_eq]
          exact w
      · simp only [Memory.below, List.all_cons, Bool.and_eq_true, decide_eq_true_eq]
        exact ⟨w.1, ih w.2⟩

/-! ## Several bytes -/

@[simp] theorem Memory.wf_writeBytes {m : Memory} (w : m.wf = true) (a : Nat) (bs : List Byte) :
    (m.writeBytes a bs).wf = true := by
  induction bs generalizing m a with
  | nil => exact w
  | cons b bs ih => exact ih (Memory.wf_write w a b) (a + 1)

theorem Memory.below_writeBytes {n : Nat} {m : Memory} (w : m.below n = true) (a : Nat) (bs : List Byte)
    (h : a + bs.length ≤ n) : (m.writeBytes a bs).below n = true := by
  induction bs generalizing m a with
  | nil => exact w
  | cons b bs ih =>
    simp only [List.length_cons] at h
    exact ih (Memory.below_write w (by omega) b) (a + 1) (by omega)

/-- What a byte reads as after writing a list of bytes from `a` on. -/
theorem Memory.read_writeBytes {m : Memory} (w : m.wf = true) (a : Nat) (bs : List Byte) (b : Nat) :
    (m.writeBytes a bs).read b = if a ≤ b ∧ b < a + bs.length then bs.getD (b - a) 0 else m.read b := by
  induction bs generalizing m a with
  | nil =>
    have : ¬ (a ≤ b ∧ b < a) := by omega
    simp [Memory.writeBytes, this]
  | cons x bs ih =>
    simp only [Memory.writeBytes, List.length_cons]
    rw [ih (Memory.wf_write w a x)]
    by_cases hb : b = a
    · subst hb
      have h1 : ¬ (b + 1 ≤ b ∧ b < b + 1 + bs.length) := by omega
      have h2 : b ≤ b ∧ b < b + (bs.length + 1) := by omega
      rw [if_neg h1, if_pos h2, Memory.read_write_same w]
      simp
    · rw [Memory.read_write_other w x hb]
      by_cases hr : a + 1 ≤ b ∧ b < a + 1 + bs.length
      · have h2 : a ≤ b ∧ b < a + (bs.length + 1) := by omega
        rw [if_pos hr, if_pos h2]
        have e : b - a = (b - (a + 1)) + 1 := by omega
        rw [e]; simp
      · have h2 : ¬ (a ≤ b ∧ b < a + (bs.length + 1)) := by omega
        rw [if_neg hr, if_neg h2]

/-! ## Words -/

@[simp] theorem Memory.wf_writeWord {m : Memory} (w : m.wf = true) (a : Nat) (v : Word) :
    (m.writeWord a v).wf = true :=
  Memory.wf_write (Memory.wf_write (Memory.wf_write (Memory.wf_write w _ _) _ _) _ _) _ _

theorem Memory.below_writeWord {n : Nat} {m : Memory} (w : m.below n = true) (a : Nat) (v : Word) (h : a + 4 ≤ n) :
    (m.writeWord a v).below n = true := by
  simp only [Memory.writeWord]
  exact Memory.below_write (Memory.below_write (Memory.below_write (Memory.below_write w (by omega) _) (by omega) _)
    (by omega) _) (by omega) _

/-- What a byte reads as after writing a word: byte `b - a` of the word inside it, as before outside. -/
theorem Memory.read_writeWord {m : Memory} (w : m.wf = true) (a : Nat) (v : Word) (b : Nat) :
    (m.writeWord a v).read b = if a ≤ b ∧ b < a + 4 then v.extractLsb' (8 * (b - a)) 8 else m.read b := by
  simp only [Memory.writeWord]
  rw [Memory.read_write (Memory.wf_write (Memory.wf_write (Memory.wf_write w _ _) _ _) _ _),
    Memory.read_write (Memory.wf_write (Memory.wf_write w _ _) _ _), Memory.read_write (Memory.wf_write w _ _),
    Memory.read_write w]
  by_cases h3 : b = a + 3
  · subst h3; simp
  by_cases h2 : b = a + 2
  · subst h2; simp
  by_cases h1 : b = a + 1
  · subst h1; simp
  by_cases h0 : b = a
  · subst h0; simp
  have : ¬ (a ≤ b ∧ b < a + 4) := by omega
  simp [h3, h2, h1, h0, this]

/-- The four bytes of a word put together again. -/
theorem append_extract_bytes (v : Word) :
    v.extractLsb' 24 8 ++ v.extractLsb' 16 8 ++ v.extractLsb' 8 8 ++ v.extractLsb' 0 8 = v := by
  apply BitVec.eq_of_getLsbD_eq
  intro i hi
  simp only [BitVec.getLsbD_append, BitVec.getLsbD_extractLsb']
  by_cases h0 : i < 8
  · simp [h0]
  by_cases h1 : i < 16
  · have e : i - 8 < 8 := by omega
    simp [h0, e, show 8 + (i - 8) = i by omega]
  by_cases h2 : i < 24
  · have e : ¬ i - 8 < 8 := by omega
    have e' : i - 8 - 8 < 8 := by omega
    simp [h0, e, e', show 16 + (i - 8 - 8) = i by omega]
  · have e : ¬ i - 8 < 8 := by omega
    have e' : ¬ i - 8 - 8 < 8 := by omega
    have e'' : i - 8 - 8 - 8 < 8 := by omega
    simp [h0, e, e', e'', show 24 + (i - 8 - 8 - 8) = i by omega]

@[simp] theorem Memory.readWord_writeWord_same {m : Memory} (w : m.wf = true) (a : Nat) (v : Word) :
    (m.writeWord a v).readWord a = v := by
  simp only [Memory.readWord, Memory.read_writeWord w]
  have h0 : a ≤ a ∧ a < a + 4 := by omega
  have h1 : a ≤ a + 1 ∧ a + 1 < a + 4 := by omega
  have h2 : a ≤ a + 2 ∧ a + 2 < a + 4 := by omega
  have h3 : a ≤ a + 3 ∧ a + 3 < a + 4 := by omega
  rw [if_pos h0, if_pos h1, if_pos h2, if_pos h3]
  have e1 : a + 1 - a = 1 := by omega
  have e2 : a + 2 - a = 2 := by omega
  have e3 : a + 3 - a = 3 := by omega
  rw [e1, e2, e3, Nat.sub_self]
  exact append_extract_bytes v

/-- Reads of a word agree when its four bytes do. -/
theorem Memory.readWord_congr {m n : Memory} {a : Nat} (h : ∀ b, a ≤ b → b < a + 4 → m.read b = n.read b) :
    m.readWord a = n.readWord a := by
  simp only [Memory.readWord]
  rw [h a (by omega) (by omega), h (a + 1) (by omega) (by omega), h (a + 2) (by omega) (by omega),
    h (a + 3) (by omega) (by omega)]

theorem Memory.readWord_writeWord_other {m : Memory} (w : m.wf = true) {a b : Nat} (v : Word)
    (h : b + 4 ≤ a ∨ a + 4 ≤ b) : (m.writeWord a v).readWord b = m.readWord b := by
  apply Memory.readWord_congr
  intro c h1 h2
  rw [Memory.read_writeWord w, if_neg (by omega)]

/-- The bytes of a word are what a byte read gives. -/
theorem Memory.extract_readWord (m : Memory) (a i : Nat) (h : i < 4) :
    (m.readWord a).extractLsb' (8 * i) 8 = m.read (a + i) := by
  apply BitVec.eq_of_getLsbD_eq
  intro j hj
  simp only [Memory.readWord, BitVec.getLsbD_append, BitVec.getLsbD_extractLsb', hj, decide_true, Bool.true_and]
  have hi : i = 0 ∨ i = 1 ∨ i = 2 ∨ i = 3 := by omega
  rcases hi with rfl | rfl | rfl | rfl
  · simp [hj]
  · have e1 : ¬ 8 + j < 8 := by omega
    have e2 : 8 + j - 8 = j := by omega
    simp [hj, e2]
  · have e1 : ¬ 16 + j < 8 := by omega
    have e2 : ¬ 16 + j - 8 < 8 := by omega
    have e3 : 16 + j - 8 - 8 = j := by omega
    simp [hj, e1, e2, e3]
  · have e1 : ¬ 24 + j < 8 := by omega
    have e2 : ¬ 24 + j - 8 < 8 := by omega
    have e3 : ¬ 24 + j - 8 - 8 < 8 := by omega
    have e4 : 24 + j - 8 - 8 - 8 = j := by omega
    simp [hj, e1, e2, e3, e4]

/-- A word read is its bytes, little-endian, as a number (R74). -/
theorem Memory.toNat_readWord (m : Memory) (a : Nat) :
    (m.readWord a).toNat = (m.read a).toNat + 2 ^ 8 * (m.read (a + 1)).toNat + 2 ^ 16 * (m.read (a + 2)).toNat +
      2 ^ 24 * (m.read (a + 3)).toNat := by
  simp only [Memory.readWord, BitVec.toNat_append]
  have h0 := (m.read a).isLt
  have h1 := (m.read (a + 1)).isLt
  have h2 := (m.read (a + 2)).isLt
  rw [← Nat.shiftLeft_add_eq_or_of_lt h0, ← Nat.shiftLeft_add_eq_or_of_lt h1, ← Nat.shiftLeft_add_eq_or_of_lt h2]
  simp only [Nat.shiftLeft_eq]
  omega

/-! ## Blocks -/

@[simp] theorem wf_writeBlock {m : Memory} (w : m.wf = true) (n : Nat) (x : Block) : (writeBlock m n x).wf = true := by
  simp only [writeBlock]
  repeat' apply Memory.wf_writeWord
  exact w

theorem below_writeBlock {N : Nat} {m : Memory} (w : m.below N = true) (n : Nat) (x : Block) (h : 32 * n + 32 ≤ N) :
    (writeBlock m n x).below N = true := by
  simp only [writeBlock, blockAddr]
  repeat' apply Memory.below_writeWord
  all_goals first | exact w | omega

/-- Writing a block changes no byte outside it. -/
theorem read_writeBlock_other {m : Memory} (w : m.wf = true) (n : Nat) (x : Block) {b : Nat}
    (h : b < 32 * n ∨ 32 * n + 32 ≤ b) : (writeBlock m n x).read b = m.read b := by
  have key : ∀ {k : Memory} (a : Nat) (v : Word), k.wf = true → (b < a ∨ a + 4 ≤ b) →
      (k.writeWord a v).read b = k.read b := by
    intro k a v wk hb
    rw [Memory.read_writeWord wk, if_neg (by omega)]
  simp only [writeBlock, blockAddr]
  rw [key, key, key, key, key, key, key, key]
  all_goals first
    | omega
    | (repeat' apply Memory.wf_writeWord) <;> exact w

/-- Reads of a block agree when its 32 bytes do. -/
theorem readBlock_congr {m n : Memory} {k : Nat} (h : ∀ b, 32 * k ≤ b → b < 32 * k + 32 → m.read b = n.read b) :
    readBlock m k = readBlock n k := by
  simp only [readBlock, blockAddr, Block.mk.injEq]
  refine ⟨?_, ?_, ?_, ?_, ?_, ?_, ?_, ?_⟩ <;>
    (apply Memory.readWord_congr; intro b h1 h2; exact h b (by omega) (by omega))

/-- A block read where it was written. -/
theorem readBlock_writeBlock_same {m : Memory} (w : m.wf = true) (n : Nat) (x : Block) :
    readBlock (writeBlock m n x) n = x := by
  obtain ⟨a, b, c, d, e, f, g, h⟩ := x
  have o := @Memory.readWord_writeWord_other
  have s := @Memory.readWord_writeWord_same
  simp only [readBlock, writeBlock, blockAddr, Block.mk.injEq]
  refine ⟨?_, ?_, ?_, ?_, ?_, ?_, ?_, ?_⟩
  · rw [o, o, o, o, o, o, o, s] <;> first | omega | ((repeat' apply Memory.wf_writeWord) <;> exact w)
  · rw [o, o, o, o, o, o, s] <;> first | omega | ((repeat' apply Memory.wf_writeWord) <;> exact w)
  · rw [o, o, o, o, o, s] <;> first | omega | ((repeat' apply Memory.wf_writeWord) <;> exact w)
  · rw [o, o, o, o, s] <;> first | omega | ((repeat' apply Memory.wf_writeWord) <;> exact w)
  · rw [o, o, o, s] <;> first | omega | ((repeat' apply Memory.wf_writeWord) <;> exact w)
  · rw [o, o, s] <;> first | omega | ((repeat' apply Memory.wf_writeWord) <;> exact w)
  · rw [o, s] <;> first | omega | ((repeat' apply Memory.wf_writeWord) <;> exact w)
  · rw [s] <;> first | omega | ((repeat' apply Memory.wf_writeWord) <;> exact w)

theorem readBlock_writeBlock_other {m : Memory} (w : m.wf = true) {n k : Nat} (x : Block) (h : k ≠ n) :
    readBlock (writeBlock m n x) k = readBlock m k := by
  apply readBlock_congr
  intro b h1 h2
  exact read_writeBlock_other w n x (by omega)

/-- Memories whose blocks below `n` agree agree on every byte of those blocks. -/
theorem read_eq_of_readBlock_eq {m k : Memory} {n : Nat} (h : readBlock m n = readBlock k n) {b : Nat}
    (h1 : 32 * n ≤ b) (h2 : b < 32 * n + 32) : m.read b = k.read b := by
  simp only [readBlock, blockAddr, Block.mk.injEq] at h
  obtain ⟨ha, hb, hc, hd, he, hf, hg, hh⟩ := h
  have key : ∀ q i, i < 4 → m.readWord q = k.readWord q → m.read (q + i) = k.read (q + i) := by
    intro q i hi e
    rw [← Memory.extract_readWord m q i hi, ← Memory.extract_readWord k q i hi, e]
  have hb' : b = 32 * n + 4 * ((b - 32 * n) / 4) + (b - 32 * n) % 4 := by omega
  have hi : (b - 32 * n) % 4 < 4 := Nat.mod_lt _ (by decide)
  have hq : (b - 32 * n) / 4 < 8 := by omega
  rw [hb']
  have hcase : (b - 32 * n) / 4 = 0 ∨ (b - 32 * n) / 4 = 1 ∨ (b - 32 * n) / 4 = 2 ∨ (b - 32 * n) / 4 = 3 ∨
      (b - 32 * n) / 4 = 4 ∨ (b - 32 * n) / 4 = 5 ∨ (b - 32 * n) / 4 = 6 ∨ (b - 32 * n) / 4 = 7 := by omega
  rcases hcase with e | e | e | e | e | e | e | e <;> rw [e] <;> exact key _ _ hi (by assumption)

end Sys2Proof.Machine
end

