-- ==== Sys2Proof/Laws/State.lean ====
section
/-! SUPPORT. What each update of the state does to each field, so that no proof unfolds an update. -/

namespace Sys2Proof.Machine

/-! ## BUF replaced. -/

@[simp] theorem withBuf_cfg (s : State) (m : Memory) : (s.withBuf m).cfg = s.cfg := rfl
@[simp] theorem withBuf_bank0 (s : State) (m : Memory) : (s.withBuf m).bank0 = s.bank0 := rfl
@[simp] theorem withBuf_bank1 (s : State) (m : Memory) : (s.withBuf m).bank1 = s.bank1 := rfl
@[simp] theorem withBuf_ri (s : State) (m : Memory) : (s.withBuf m).ri = s.ri := rfl
@[simp] theorem withBuf_keyBlocks (s : State) (m : Memory) : (s.withBuf m).keyBlocks = s.keyBlocks := rfl
@[simp] theorem withBuf_chunk (s : State) (m : Memory) : (s.withBuf m).chunk = s.chunk := rfl
@[simp] theorem withBuf_buf (s : State) (m : Memory) : (s.withBuf m).buf = m := rfl
@[simp] theorem withBuf_cmd (s : State) (m : Memory) : (s.withBuf m).cmd = s.cmd := rfl
@[simp] theorem withBuf_len (s : State) (m : Memory) : (s.withBuf m).len = s.len := rfl
@[simp] theorem withBuf_busy (s : State) (m : Memory) : (s.withBuf m).busy = s.busy := rfl
@[simp] theorem withBuf_done (s : State) (m : Memory) : (s.withBuf m).done = s.done := rfl
@[simp] theorem withBuf_err (s : State) (m : Memory) : (s.withBuf m).err = s.err := rfl
@[simp] theorem withBuf_errcode (s : State) (m : Memory) : (s.withBuf m).errcode = s.errcode := rfl
@[simp] theorem withBuf_busyerr (s : State) (m : Memory) : (s.withBuf m).busyerr = s.busyerr := rfl
@[simp] theorem withBuf_ie (s : State) (m : Memory) : (s.withBuf m).ie = s.ie := rfl
@[simp] theorem withBuf_curOp (s : State) (m : Memory) : (s.withBuf m).curOp = s.curOp := rfl
@[simp] theorem withBuf_curCtx (s : State) (m : Memory) : (s.withBuf m).curCtx = s.curCtx := rfl
@[simp] theorem withBuf_curRsvd (s : State) (m : Memory) : (s.withBuf m).curRsvd = s.curRsvd := rfl
@[simp] theorem withBuf_curLen (s : State) (m : Memory) : (s.withBuf m).curLen = s.curLen := rfl
@[simp] theorem withBuf_hostProg (s : State) (m : Memory) : (s.withBuf m).hostProg = s.hostProg := rfl
@[simp] theorem withBuf_received (s : State) (m : Memory) : (s.withBuf m).received = s.received := rfl
@[simp] theorem withBuf_hostStopped (s : State) (m : Memory) : (s.withBuf m).hostStopped = s.hostStopped := rfl
@[simp] theorem withBuf_turns (s : State) (m : Memory) : (s.withBuf m).turns = s.turns := rfl
@[simp] theorem withBuf_draws (s : State) (m : Memory) : (s.withBuf m).draws = s.draws := rfl

/-! ## The transient stores loaded. -/

@[simp] theorem withKeyStores_cfg (s : State) (kb ch : List Word) : (s.withKeyStores kb ch).cfg = s.cfg := rfl
@[simp] theorem withKeyStores_bank0 (s : State) (kb ch : List Word) : (s.withKeyStores kb ch).bank0 = s.bank0 := rfl
@[simp] theorem withKeyStores_bank1 (s : State) (kb ch : List Word) : (s.withKeyStores kb ch).bank1 = s.bank1 := rfl
@[simp] theorem withKeyStores_ri (s : State) (kb ch : List Word) : (s.withKeyStores kb ch).ri = s.ri := rfl
@[simp] theorem withKeyStores_keyBlocks (s : State) (kb ch : List Word) : (s.withKeyStores kb ch).keyBlocks = kb := rfl
@[simp] theorem withKeyStores_chunk (s : State) (kb ch : List Word) : (s.withKeyStores kb ch).chunk = ch := rfl
@[simp] theorem withKeyStores_buf (s : State) (kb ch : List Word) : (s.withKeyStores kb ch).buf = s.buf := rfl
@[simp] theorem withKeyStores_cmd (s : State) (kb ch : List Word) : (s.withKeyStores kb ch).cmd = s.cmd := rfl
@[simp] theorem withKeyStores_len (s : State) (kb ch : List Word) : (s.withKeyStores kb ch).len = s.len := rfl
@[simp] theorem withKeyStores_busy (s : State) (kb ch : List Word) : (s.withKeyStores kb ch).busy = s.busy := rfl
@[simp] theorem withKeyStores_done (s : State) (kb ch : List Word) : (s.withKeyStores kb ch).done = s.done := rfl
@[simp] theorem withKeyStores_err (s : State) (kb ch : List Word) : (s.withKeyStores kb ch).err = s.err := rfl
@[simp] theorem withKeyStores_errcode (s : State) (kb ch : List Word) : (s.withKeyStores kb ch).errcode = s.errcode := rfl
@[simp] theorem withKeyStores_busyerr (s : State) (kb ch : List Word) : (s.withKeyStores kb ch).busyerr = s.busyerr := rfl
@[simp] theorem withKeyStores_ie (s : State) (kb ch : List Word) : (s.withKeyStores kb ch).ie = s.ie := rfl
@[simp] theorem withKeyStores_curOp (s : State) (kb ch : List Word) : (s.withKeyStores kb ch).curOp = s.curOp := rfl
@[simp] theorem withKeyStores_curCtx (s : State) (kb ch : List Word) : (s.withKeyStores kb ch).curCtx = s.curCtx := rfl
@[simp] theorem withKeyStores_curRsvd (s : State) (kb ch : List Word) : (s.withKeyStores kb ch).curRsvd = s.curRsvd := rfl
@[simp] theorem withKeyStores_curLen (s : State) (kb ch : List Word) : (s.withKeyStores kb ch).curLen = s.curLen := rfl
@[simp] theorem withKeyStores_hostProg (s : State) (kb ch : List Word) : (s.withKeyStores kb ch).hostProg = s.hostProg := rfl
@[simp] theorem withKeyStores_received (s : State) (kb ch : List Word) : (s.withKeyStores kb ch).received = s.received := rfl
@[simp] theorem withKeyStores_hostStopped (s : State) (kb ch : List Word) : (s.withKeyStores kb ch).hostStopped = s.hostStopped := rfl
@[simp] theorem withKeyStores_turns (s : State) (kb ch : List Word) : (s.withKeyStores kb ch).turns = s.turns := rfl
@[simp] theorem withKeyStores_draws (s : State) (kb ch : List Word) : (s.withKeyStores kb ch).draws = s.draws := rfl

/-! ## The transient stores scrubbed. -/

@[simp] theorem scrubKeyStores_cfg (s : State) : (s.scrubKeyStores).cfg = s.cfg := rfl
@[simp] theorem scrubKeyStores_bank0 (s : State) : (s.scrubKeyStores).bank0 = s.bank0 := rfl
@[simp] theorem scrubKeyStores_bank1 (s : State) : (s.scrubKeyStores).bank1 = s.bank1 := rfl
@[simp] theorem scrubKeyStores_ri (s : State) : (s.scrubKeyStores).ri = s.ri := rfl
@[simp] theorem scrubKeyStores_keyBlocks (s : State) : (s.scrubKeyStores).keyBlocks = [] := rfl
@[simp] theorem scrubKeyStores_chunk (s : State) : (s.scrubKeyStores).chunk = [] := rfl
@[simp] theorem scrubKeyStores_buf (s : State) : (s.scrubKeyStores).buf = s.buf := rfl
@[simp] theorem scrubKeyStores_cmd (s : State) : (s.scrubKeyStores).cmd = s.cmd := rfl
@[simp] theorem scrubKeyStores_len (s : State) : (s.scrubKeyStores).len = s.len := rfl
@[simp] theorem scrubKeyStores_busy (s : State) : (s.scrubKeyStores).busy = s.busy := rfl
@[simp] theorem scrubKeyStores_done (s : State) : (s.scrubKeyStores).done = s.done := rfl
@[simp] theorem scrubKeyStores_err (s : State) : (s.scrubKeyStores).err = s.err := rfl
@[simp] theorem scrubKeyStores_errcode (s : State) : (s.scrubKeyStores).errcode = s.errcode := rfl
@[simp] theorem scrubKeyStores_busyerr (s : State) : (s.scrubKeyStores).busyerr = s.busyerr := rfl
@[simp] theorem scrubKeyStores_ie (s : State) : (s.scrubKeyStores).ie = s.ie := rfl
@[simp] theorem scrubKeyStores_curOp (s : State) : (s.scrubKeyStores).curOp = s.curOp := rfl
@[simp] theorem scrubKeyStores_curCtx (s : State) : (s.scrubKeyStores).curCtx = s.curCtx := rfl
@[simp] theorem scrubKeyStores_curRsvd (s : State) : (s.scrubKeyStores).curRsvd = s.curRsvd := rfl
@[simp] theorem scrubKeyStores_curLen (s : State) : (s.scrubKeyStores).curLen = s.curLen := rfl
@[simp] theorem scrubKeyStores_hostProg (s : State) : (s.scrubKeyStores).hostProg = s.hostProg := rfl
@[simp] theorem scrubKeyStores_received (s : State) : (s.scrubKeyStores).received = s.received := rfl
@[simp] theorem scrubKeyStores_hostStopped (s : State) : (s.scrubKeyStores).hostStopped = s.hostStopped := rfl
@[simp] theorem scrubKeyStores_turns (s : State) : (s.scrubKeyStores).turns = s.turns := rfl
@[simp] theorem scrubKeyStores_draws (s : State) : (s.scrubKeyStores).draws = s.draws := rfl

/-! ## Context 0 replaced. -/

@[simp] theorem setBank0_cfg (s : State) (b : Bank) : (s.setBank .c0 b).cfg = s.cfg := rfl
@[simp] theorem setBank0_bank0 (s : State) (b : Bank) : (s.setBank .c0 b).bank0 = b := rfl
@[simp] theorem setBank0_bank1 (s : State) (b : Bank) : (s.setBank .c0 b).bank1 = s.bank1 := rfl
@[simp] theorem setBank0_ri (s : State) (b : Bank) : (s.setBank .c0 b).ri = s.ri := rfl
@[simp] theorem setBank0_keyBlocks (s : State) (b : Bank) : (s.setBank .c0 b).keyBlocks = s.keyBlocks := rfl
@[simp] theorem setBank0_chunk (s : State) (b : Bank) : (s.setBank .c0 b).chunk = s.chunk := rfl
@[simp] theorem setBank0_buf (s : State) (b : Bank) : (s.setBank .c0 b).buf = s.buf := rfl
@[simp] theorem setBank0_cmd (s : State) (b : Bank) : (s.setBank .c0 b).cmd = s.cmd := rfl
@[simp] theorem setBank0_len (s : State) (b : Bank) : (s.setBank .c0 b).len = s.len := rfl
@[simp] theorem setBank0_busy (s : State) (b : Bank) : (s.setBank .c0 b).busy = s.busy := rfl
@[simp] theorem setBank0_done (s : State) (b : Bank) : (s.setBank .c0 b).done = s.done := rfl
@[simp] theorem setBank0_err (s : State) (b : Bank) : (s.setBank .c0 b).err = s.err := rfl
@[simp] theorem setBank0_errcode (s : State) (b : Bank) : (s.setBank .c0 b).errcode = s.errcode := rfl
@[simp] theorem setBank0_busyerr (s : State) (b : Bank) : (s.setBank .c0 b).busyerr = s.busyerr := rfl
@[simp] theorem setBank0_ie (s : State) (b : Bank) : (s.setBank .c0 b).ie = s.ie := rfl
@[simp] theorem setBank0_curOp (s : State) (b : Bank) : (s.setBank .c0 b).curOp = s.curOp := rfl
@[simp] theorem setBank0_curCtx (s : State) (b : Bank) : (s.setBank .c0 b).curCtx = s.curCtx := rfl
@[simp] theorem setBank0_curRsvd (s : State) (b : Bank) : (s.setBank .c0 b).curRsvd = s.curRsvd := rfl
@[simp] theorem setBank0_curLen (s : State) (b : Bank) : (s.setBank .c0 b).curLen = s.curLen := rfl
@[simp] theorem setBank0_hostProg (s : State) (b : Bank) : (s.setBank .c0 b).hostProg = s.hostProg := rfl
@[simp] theorem setBank0_received (s : State) (b : Bank) : (s.setBank .c0 b).received = s.received := rfl
@[simp] theorem setBank0_hostStopped (s : State) (b : Bank) : (s.setBank .c0 b).hostStopped = s.hostStopped := rfl
@[simp] theorem setBank0_turns (s : State) (b : Bank) : (s.setBank .c0 b).turns = s.turns := rfl
@[simp] theorem setBank0_draws (s : State) (b : Bank) : (s.setBank .c0 b).draws = s.draws := rfl

/-! ## Context 1 replaced. -/

@[simp] theorem setBank1_cfg (s : State) (b : Bank) : (s.setBank .c1 b).cfg = s.cfg := rfl
@[simp] theorem setBank1_bank0 (s : State) (b : Bank) : (s.setBank .c1 b).bank0 = s.bank0 := rfl
@[simp] theorem setBank1_bank1 (s : State) (b : Bank) : (s.setBank .c1 b).bank1 = b := rfl
@[simp] theorem setBank1_ri (s : State) (b : Bank) : (s.setBank .c1 b).ri = s.ri := rfl
@[simp] theorem setBank1_keyBlocks (s : State) (b : Bank) : (s.setBank .c1 b).keyBlocks = s.keyBlocks := rfl
@[simp] theorem setBank1_chunk (s : State) (b : Bank) : (s.setBank .c1 b).chunk = s.chunk := rfl
@[simp] theorem setBank1_buf (s : State) (b : Bank) : (s.setBank .c1 b).buf = s.buf := rfl
@[simp] theorem setBank1_cmd (s : State) (b : Bank) : (s.setBank .c1 b).cmd = s.cmd := rfl
@[simp] theorem setBank1_len (s : State) (b : Bank) : (s.setBank .c1 b).len = s.len := rfl
@[simp] theorem setBank1_busy (s : State) (b : Bank) : (s.setBank .c1 b).busy = s.busy := rfl
@[simp] theorem setBank1_done (s : State) (b : Bank) : (s.setBank .c1 b).done = s.done := rfl
@[simp] theorem setBank1_err (s : State) (b : Bank) : (s.setBank .c1 b).err = s.err := rfl
@[simp] theorem setBank1_errcode (s : State) (b : Bank) : (s.setBank .c1 b).errcode = s.errcode := rfl
@[simp] theorem setBank1_busyerr (s : State) (b : Bank) : (s.setBank .c1 b).busyerr = s.busyerr := rfl
@[simp] theorem setBank1_ie (s : State) (b : Bank) : (s.setBank .c1 b).ie = s.ie := rfl
@[simp] theorem setBank1_curOp (s : State) (b : Bank) : (s.setBank .c1 b).curOp = s.curOp := rfl
@[simp] theorem setBank1_curCtx (s : State) (b : Bank) : (s.setBank .c1 b).curCtx = s.curCtx := rfl
@[simp] theorem setBank1_curRsvd (s : State) (b : Bank) : (s.setBank .c1 b).curRsvd = s.curRsvd := rfl
@[simp] theorem setBank1_curLen (s : State) (b : Bank) : (s.setBank .c1 b).curLen = s.curLen := rfl
@[simp] theorem setBank1_hostProg (s : State) (b : Bank) : (s.setBank .c1 b).hostProg = s.hostProg := rfl
@[simp] theorem setBank1_received (s : State) (b : Bank) : (s.setBank .c1 b).received = s.received := rfl
@[simp] theorem setBank1_hostStopped (s : State) (b : Bank) : (s.setBank .c1 b).hostStopped = s.hostStopped := rfl
@[simp] theorem setBank1_turns (s : State) (b : Bank) : (s.setBank .c1 b).turns = s.turns := rfl
@[simp] theorem setBank1_draws (s : State) (b : Bank) : (s.setBank .c1 b).draws = s.draws := rfl

/-! ## Acceptance (R311). -/

@[simp] theorem acceptCommand_cfg (w : Word) (s : State) : (acceptCommand w s).cfg = s.cfg := rfl
@[simp] theorem acceptCommand_bank0 (w : Word) (s : State) : (acceptCommand w s).bank0 = s.bank0 := rfl
@[simp] theorem acceptCommand_bank1 (w : Word) (s : State) : (acceptCommand w s).bank1 = s.bank1 := rfl
@[simp] theorem acceptCommand_ri (w : Word) (s : State) : (acceptCommand w s).ri = s.ri := rfl
@[simp] theorem acceptCommand_keyBlocks (w : Word) (s : State) : (acceptCommand w s).keyBlocks = s.keyBlocks := rfl
@[simp] theorem acceptCommand_chunk (w : Word) (s : State) : (acceptCommand w s).chunk = s.chunk := rfl
@[simp] theorem acceptCommand_buf (w : Word) (s : State) : (acceptCommand w s).buf = s.buf := rfl
@[simp] theorem acceptCommand_cmd (w : Word) (s : State) : (acceptCommand w s).cmd = w := rfl
@[simp] theorem acceptCommand_len (w : Word) (s : State) : (acceptCommand w s).len = s.len := rfl
@[simp] theorem acceptCommand_busy (w : Word) (s : State) : (acceptCommand w s).busy = true := rfl
@[simp] theorem acceptCommand_done (w : Word) (s : State) : (acceptCommand w s).done = false := rfl
@[simp] theorem acceptCommand_err (w : Word) (s : State) : (acceptCommand w s).err = false := rfl
@[simp] theorem acceptCommand_errcode (w : Word) (s : State) : (acceptCommand w s).errcode = 0 := rfl
@[simp] theorem acceptCommand_busyerr (w : Word) (s : State) : (acceptCommand w s).busyerr = s.busyerr := rfl
@[simp] theorem acceptCommand_ie (w : Word) (s : State) : (acceptCommand w s).ie = s.ie := rfl
@[simp] theorem acceptCommand_curOp (w : Word) (s : State) : (acceptCommand w s).curOp = (fieldsOf w).op := rfl
@[simp] theorem acceptCommand_curCtx (w : Word) (s : State) : (acceptCommand w s).curCtx = (fieldsOf w).ctx := rfl
@[simp] theorem acceptCommand_curRsvd (w : Word) (s : State) : (acceptCommand w s).curRsvd = (fieldsOf w).rsvd := rfl
@[simp] theorem acceptCommand_curLen (w : Word) (s : State) : (acceptCommand w s).curLen = s.len := rfl
@[simp] theorem acceptCommand_hostProg (w : Word) (s : State) : (acceptCommand w s).hostProg = s.hostProg := rfl
@[simp] theorem acceptCommand_received (w : Word) (s : State) : (acceptCommand w s).received = s.received := rfl
@[simp] theorem acceptCommand_hostStopped (w : Word) (s : State) : (acceptCommand w s).hostStopped = s.hostStopped := rfl
@[simp] theorem acceptCommand_turns (w : Word) (s : State) : (acceptCommand w s).turns = s.turns := rfl
@[simp] theorem acceptCommand_draws (w : Word) (s : State) : (acceptCommand w s).draws = s.draws := rfl

/-! ## Completion without an error (R312). -/

@[simp] theorem completeOk_cfg (s : State) : (completeOk s).cfg = s.cfg := rfl
@[simp] theorem completeOk_bank0 (s : State) : (completeOk s).bank0 = s.bank0 := rfl
@[simp] theorem completeOk_bank1 (s : State) : (completeOk s).bank1 = s.bank1 := rfl
@[simp] theorem completeOk_ri (s : State) : (completeOk s).ri = 0 := rfl
@[simp] theorem completeOk_keyBlocks (s : State) : (completeOk s).keyBlocks = s.keyBlocks := rfl
@[simp] theorem completeOk_chunk (s : State) : (completeOk s).chunk = s.chunk := rfl
@[simp] theorem completeOk_buf (s : State) : (completeOk s).buf = s.buf := rfl
@[simp] theorem completeOk_cmd (s : State) : (completeOk s).cmd = s.cmd := rfl
@[simp] theorem completeOk_len (s : State) : (completeOk s).len = s.len := rfl
@[simp] theorem completeOk_busy (s : State) : (completeOk s).busy = false := rfl
@[simp] theorem completeOk_done (s : State) : (completeOk s).done = true := rfl
@[simp] theorem completeOk_err (s : State) : (completeOk s).err = false := rfl
@[simp] theorem completeOk_errcode (s : State) : (completeOk s).errcode = 0 := rfl
@[simp] theorem completeOk_busyerr (s : State) : (completeOk s).busyerr = s.busyerr := rfl
@[simp] theorem completeOk_ie (s : State) : (completeOk s).ie = s.ie := rfl
@[simp] theorem completeOk_curOp (s : State) : (completeOk s).curOp = s.curOp := rfl
@[simp] theorem completeOk_curCtx (s : State) : (completeOk s).curCtx = s.curCtx := rfl
@[simp] theorem completeOk_curRsvd (s : State) : (completeOk s).curRsvd = s.curRsvd := rfl
@[simp] theorem completeOk_curLen (s : State) : (completeOk s).curLen = s.curLen := rfl
@[simp] theorem completeOk_hostProg (s : State) : (completeOk s).hostProg = s.hostProg := rfl
@[simp] theorem completeOk_received (s : State) : (completeOk s).received = s.received := rfl
@[simp] theorem completeOk_hostStopped (s : State) : (completeOk s).hostStopped = s.hostStopped := rfl
@[simp] theorem completeOk_turns (s : State) : (completeOk s).turns = s.turns := rfl
@[simp] theorem completeOk_draws (s : State) : (completeOk s).draws = s.draws := rfl

/-! ## Completion with an error (R312). -/

@[simp] theorem completeError_cfg (e : ErrCode) (s : State) : (completeError e s).cfg = s.cfg := rfl
@[simp] theorem completeError_bank0 (e : ErrCode) (s : State) : (completeError e s).bank0 = s.bank0 := rfl
@[simp] theorem completeError_bank1 (e : ErrCode) (s : State) : (completeError e s).bank1 = s.bank1 := rfl
@[simp] theorem completeError_ri (e : ErrCode) (s : State) : (completeError e s).ri = 0 := rfl
@[simp] theorem completeError_keyBlocks (e : ErrCode) (s : State) : (completeError e s).keyBlocks = s.keyBlocks := rfl
@[simp] theorem completeError_chunk (e : ErrCode) (s : State) : (completeError e s).chunk = s.chunk := rfl
@[simp] theorem completeError_buf (e : ErrCode) (s : State) : (completeError e s).buf = s.buf := rfl
@[simp] theorem completeError_cmd (e : ErrCode) (s : State) : (completeError e s).cmd = s.cmd := rfl
@[simp] theorem completeError_len (e : ErrCode) (s : State) : (completeError e s).len = s.len := rfl
@[simp] theorem completeError_busy (e : ErrCode) (s : State) : (completeError e s).busy = false := rfl
@[simp] theorem completeError_done (e : ErrCode) (s : State) : (completeError e s).done = true := rfl
@[simp] theorem completeError_err (e : ErrCode) (s : State) : (completeError e s).err = true := rfl
@[simp] theorem completeError_errcode (e : ErrCode) (s : State) : (completeError e s).errcode = e.bits := rfl
@[simp] theorem completeError_busyerr (e : ErrCode) (s : State) : (completeError e s).busyerr = s.busyerr := rfl
@[simp] theorem completeError_ie (e : ErrCode) (s : State) : (completeError e s).ie = s.ie := rfl
@[simp] theorem completeError_curOp (e : ErrCode) (s : State) : (completeError e s).curOp = s.curOp := rfl
@[simp] theorem completeError_curCtx (e : ErrCode) (s : State) : (completeError e s).curCtx = s.curCtx := rfl
@[simp] theorem completeError_curRsvd (e : ErrCode) (s : State) : (completeError e s).curRsvd = s.curRsvd := rfl
@[simp] theorem completeError_curLen (e : ErrCode) (s : State) : (completeError e s).curLen = s.curLen := rfl
@[simp] theorem completeError_hostProg (e : ErrCode) (s : State) : (completeError e s).hostProg = s.hostProg := rfl
@[simp] theorem completeError_received (e : ErrCode) (s : State) : (completeError e s).received = s.received := rfl
@[simp] theorem completeError_hostStopped (e : ErrCode) (s : State) : (completeError e s).hostStopped = s.hostStopped := rfl
@[simp] theorem completeError_turns (e : ErrCode) (s : State) : (completeError e s).turns = s.turns := rfl
@[simp] theorem completeError_draws (e : ErrCode) (s : State) : (completeError e s).draws = s.draws := rfl

/-! ## A write to STATUS (R41). -/

@[simp] theorem clearStatus_cfg (w : Word) (s : State) : (clearStatus w s).cfg = s.cfg := rfl
@[simp] theorem clearStatus_bank0 (w : Word) (s : State) : (clearStatus w s).bank0 = s.bank0 := rfl
@[simp] theorem clearStatus_bank1 (w : Word) (s : State) : (clearStatus w s).bank1 = s.bank1 := rfl
@[simp] theorem clearStatus_ri (w : Word) (s : State) : (clearStatus w s).ri = s.ri := rfl
@[simp] theorem clearStatus_keyBlocks (w : Word) (s : State) : (clearStatus w s).keyBlocks = s.keyBlocks := rfl
@[simp] theorem clearStatus_chunk (w : Word) (s : State) : (clearStatus w s).chunk = s.chunk := rfl
@[simp] theorem clearStatus_buf (w : Word) (s : State) : (clearStatus w s).buf = s.buf := rfl
@[simp] theorem clearStatus_cmd (w : Word) (s : State) : (clearStatus w s).cmd = s.cmd := rfl
@[simp] theorem clearStatus_len (w : Word) (s : State) : (clearStatus w s).len = s.len := rfl
@[simp] theorem clearStatus_busy (w : Word) (s : State) : (clearStatus w s).busy = s.busy := rfl
@[simp] theorem clearStatus_done (w : Word) (s : State) : (clearStatus w s).done = (s.done && !w.getLsbD 1) := rfl
@[simp] theorem clearStatus_err (w : Word) (s : State) : (clearStatus w s).err = (s.err && !w.getLsbD 2) := rfl
@[simp] theorem clearStatus_errcode (w : Word) (s : State) : (clearStatus w s).errcode = (if w.getLsbD 2 then 0 else s.errcode) := rfl
@[simp] theorem clearStatus_busyerr (w : Word) (s : State) : (clearStatus w s).busyerr = (s.busyerr && !w.getLsbD 10) := rfl
@[simp] theorem clearStatus_ie (w : Word) (s : State) : (clearStatus w s).ie = s.ie := rfl
@[simp] theorem clearStatus_curOp (w : Word) (s : State) : (clearStatus w s).curOp = s.curOp := rfl
@[simp] theorem clearStatus_curCtx (w : Word) (s : State) : (clearStatus w s).curCtx = s.curCtx := rfl
@[simp] theorem clearStatus_curRsvd (w : Word) (s : State) : (clearStatus w s).curRsvd = s.curRsvd := rfl
@[simp] theorem clearStatus_curLen (w : Word) (s : State) : (clearStatus w s).curLen = s.curLen := rfl
@[simp] theorem clearStatus_hostProg (w : Word) (s : State) : (clearStatus w s).hostProg = s.hostProg := rfl
@[simp] theorem clearStatus_received (w : Word) (s : State) : (clearStatus w s).received = s.received := rfl
@[simp] theorem clearStatus_hostStopped (w : Word) (s : State) : (clearStatus w s).hostStopped = s.hostStopped := rfl
@[simp] theorem clearStatus_turns (w : Word) (s : State) : (clearStatus w s).turns = s.turns := rfl
@[simp] theorem clearStatus_draws (w : Word) (s : State) : (clearStatus w s).draws = s.draws := rfl

/-! ## The engine's reset (R350). -/

@[simp] theorem resetEngine_cfg (s : State) : (resetEngine s).cfg = s.cfg := rfl
@[simp] theorem resetEngine_bank0 (s : State) : (resetEngine s).bank0 = Bank.zero := rfl
@[simp] theorem resetEngine_bank1 (s : State) : (resetEngine s).bank1 = Bank.zero := rfl
@[simp] theorem resetEngine_ri (s : State) : (resetEngine s).ri = 0 := rfl
@[simp] theorem resetEngine_keyBlocks (s : State) : (resetEngine s).keyBlocks = [] := rfl
@[simp] theorem resetEngine_chunk (s : State) : (resetEngine s).chunk = [] := rfl
@[simp] theorem resetEngine_buf (s : State) : (resetEngine s).buf = [] := rfl
@[simp] theorem resetEngine_cmd (s : State) : (resetEngine s).cmd = 0 := rfl
@[simp] theorem resetEngine_len (s : State) : (resetEngine s).len = 0 := rfl
@[simp] theorem resetEngine_busy (s : State) : (resetEngine s).busy = false := rfl
@[simp] theorem resetEngine_done (s : State) : (resetEngine s).done = false := rfl
@[simp] theorem resetEngine_err (s : State) : (resetEngine s).err = false := rfl
@[simp] theorem resetEngine_errcode (s : State) : (resetEngine s).errcode = 0 := rfl
@[simp] theorem resetEngine_busyerr (s : State) : (resetEngine s).busyerr = false := rfl
@[simp] theorem resetEngine_ie (s : State) : (resetEngine s).ie = false := rfl
@[simp] theorem resetEngine_curOp (s : State) : (resetEngine s).curOp = 0 := rfl
@[simp] theorem resetEngine_curCtx (s : State) : (resetEngine s).curCtx = 0 := rfl
@[simp] theorem resetEngine_curRsvd (s : State) : (resetEngine s).curRsvd = 0 := rfl
@[simp] theorem resetEngine_curLen (s : State) : (resetEngine s).curLen = 0 := rfl
@[simp] theorem resetEngine_hostProg (s : State) : (resetEngine s).hostProg = s.hostProg := rfl
@[simp] theorem resetEngine_received (s : State) : (resetEngine s).received = s.received := rfl
@[simp] theorem resetEngine_hostStopped (s : State) : (resetEngine s).hostStopped = s.hostStopped := rfl
@[simp] theorem resetEngine_turns (s : State) : (resetEngine s).turns = s.turns := rfl
@[simp] theorem resetEngine_draws (s : State) : (resetEngine s).draws = s.draws := rfl

/-! ## Data arriving at the host. -/

@[simp] theorem receive_cfg (d : ReadData) (s : State) : (receive d s).cfg = s.cfg := rfl
@[simp] theorem receive_bank0 (d : ReadData) (s : State) : (receive d s).bank0 = s.bank0 := rfl
@[simp] theorem receive_bank1 (d : ReadData) (s : State) : (receive d s).bank1 = s.bank1 := rfl
@[simp] theorem receive_ri (d : ReadData) (s : State) : (receive d s).ri = s.ri := rfl
@[simp] theorem receive_keyBlocks (d : ReadData) (s : State) : (receive d s).keyBlocks = s.keyBlocks := rfl
@[simp] theorem receive_chunk (d : ReadData) (s : State) : (receive d s).chunk = s.chunk := rfl
@[simp] theorem receive_buf (d : ReadData) (s : State) : (receive d s).buf = s.buf := rfl
@[simp] theorem receive_cmd (d : ReadData) (s : State) : (receive d s).cmd = s.cmd := rfl
@[simp] theorem receive_len (d : ReadData) (s : State) : (receive d s).len = s.len := rfl
@[simp] theorem receive_busy (d : ReadData) (s : State) : (receive d s).busy = s.busy := rfl
@[simp] theorem receive_done (d : ReadData) (s : State) : (receive d s).done = s.done := rfl
@[simp] theorem receive_err (d : ReadData) (s : State) : (receive d s).err = s.err := rfl
@[simp] theorem receive_errcode (d : ReadData) (s : State) : (receive d s).errcode = s.errcode := rfl
@[simp] theorem receive_busyerr (d : ReadData) (s : State) : (receive d s).busyerr = s.busyerr := rfl
@[simp] theorem receive_ie (d : ReadData) (s : State) : (receive d s).ie = s.ie := rfl
@[simp] theorem receive_curOp (d : ReadData) (s : State) : (receive d s).curOp = s.curOp := rfl
@[simp] theorem receive_curCtx (d : ReadData) (s : State) : (receive d s).curCtx = s.curCtx := rfl
@[simp] theorem receive_curRsvd (d : ReadData) (s : State) : (receive d s).curRsvd = s.curRsvd := rfl
@[simp] theorem receive_curLen (d : ReadData) (s : State) : (receive d s).curLen = s.curLen := rfl
@[simp] theorem receive_hostProg (d : ReadData) (s : State) : (receive d s).hostProg = s.hostProg := rfl
@[simp] theorem receive_received (d : ReadData) (s : State) : (receive d s).received = d :: s.received := rfl
@[simp] theorem receive_hostStopped (d : ReadData) (s : State) : (receive d s).hostStopped = s.hostStopped := rfl
@[simp] theorem receive_turns (d : ReadData) (s : State) : (receive d s).turns = s.turns := rfl
@[simp] theorem receive_draws (d : ReadData) (s : State) : (receive d s).draws = s.draws := rfl

/-! ## A dropped write (R320). -/

@[simp] theorem dropWrite_cfg (s : State) : (dropWrite s).cfg = s.cfg := rfl
@[simp] theorem dropWrite_bank0 (s : State) : (dropWrite s).bank0 = s.bank0 := rfl
@[simp] theorem dropWrite_bank1 (s : State) : (dropWrite s).bank1 = s.bank1 := rfl
@[simp] theorem dropWrite_ri (s : State) : (dropWrite s).ri = s.ri := rfl
@[simp] theorem dropWrite_keyBlocks (s : State) : (dropWrite s).keyBlocks = s.keyBlocks := rfl
@[simp] theorem dropWrite_chunk (s : State) : (dropWrite s).chunk = s.chunk := rfl
@[simp] theorem dropWrite_buf (s : State) : (dropWrite s).buf = s.buf := rfl
@[simp] theorem dropWrite_cmd (s : State) : (dropWrite s).cmd = s.cmd := rfl
@[simp] theorem dropWrite_len (s : State) : (dropWrite s).len = s.len := rfl
@[simp] theorem dropWrite_busy (s : State) : (dropWrite s).busy = s.busy := rfl
@[simp] theorem dropWrite_done (s : State) : (dropWrite s).done = s.done := rfl
@[simp] theorem dropWrite_err (s : State) : (dropWrite s).err = s.err := rfl
@[simp] theorem dropWrite_errcode (s : State) : (dropWrite s).errcode = s.errcode := rfl
@[simp] theorem dropWrite_busyerr (s : State) : (dropWrite s).busyerr = true := rfl
@[simp] theorem dropWrite_ie (s : State) : (dropWrite s).ie = s.ie := rfl
@[simp] theorem dropWrite_curOp (s : State) : (dropWrite s).curOp = s.curOp := rfl
@[simp] theorem dropWrite_curCtx (s : State) : (dropWrite s).curCtx = s.curCtx := rfl
@[simp] theorem dropWrite_curRsvd (s : State) : (dropWrite s).curRsvd = s.curRsvd := rfl
@[simp] theorem dropWrite_curLen (s : State) : (dropWrite s).curLen = s.curLen := rfl
@[simp] theorem dropWrite_hostProg (s : State) : (dropWrite s).hostProg = s.hostProg := rfl
@[simp] theorem dropWrite_received (s : State) : (dropWrite s).received = s.received := rfl
@[simp] theorem dropWrite_hostStopped (s : State) : (dropWrite s).hostStopped = s.hostStopped := rfl
@[simp] theorem dropWrite_turns (s : State) : (dropWrite s).turns = s.turns := rfl
@[simp] theorem dropWrite_draws (s : State) : (dropWrite s).draws = s.draws := rfl

/-! ## Banks and latches -/

@[simp] theorem bank_c0 (s : State) : s.bank .c0 = s.bank0 := rfl
@[simp] theorem bank_c1 (s : State) : s.bank .c1 = s.bank1 := rfl
@[simp] theorem completeOk_latched (s : State) : (completeOk s).latched = s.latched := rfl
@[simp] theorem completeError_latched (e : ErrCode) (s : State) : (completeError e s).latched = s.latched := rfl
@[simp] theorem acceptCommand_latched (w : Word) (s : State) : (acceptCommand w s).latched = fieldsOf w := rfl
@[simp] theorem clearStatus_latched (w : Word) (s : State) : (clearStatus w s).latched = s.latched := rfl
@[simp] theorem withBuf_latched (s : State) (m : Memory) : (s.withBuf m).latched = s.latched := rfl
@[simp] theorem receive_latched (d : ReadData) (s : State) : (receive d s).latched = s.latched := rfl
@[simp] theorem dropWrite_latched (s : State) : (dropWrite s).latched = s.latched := rfl

/-! ## Error codes (R313) -/

@[simp] theorem bits_opcode : ErrCode.bits .opcode = 1 := rfl
@[simp] theorem bits_align : ErrCode.bits .align = 2 := rfl
@[simp] theorem bits_length : ErrCode.bits .length = 3 := rfl
@[simp] theorem bits_unkeyed : ErrCode.bits .unkeyed = 4 := rfl

/-- An error code is one of R313, never 0. -/
theorem bits_range (e : ErrCode) : e.bits.toNat ≤ 4 ∧ e.bits ≠ 0 := by cases e <;> decide

end Sys2Proof.Machine
end

