-- ==== Sys2Proof/Laws/Commands.lean ====
section
/-! SUPPORT. What the shared operations of the commands can do: their checks, their effects on BUF, their completion. -/

namespace Sys2Proof.Machine

/-! ## Checks and completion -/

/-- A command either fails its check and completes with that error, or completes with its effect. -/
theorem runCommand_cases {check : Option ErrCode} {body : State → State} {s t : State}
    (h : runCommand check body s = .next t) :
    (∃ e, check = some e ∧ t = completeError e s) ∨ (check = none ∧ t = completeOk (body s)) := by
  cases check with
  | some e => simp only [runCommand, Host.Outcome.next.injEq] at h; exact .inl ⟨e, rfl, h.symm⟩
  | none => simp only [runCommand, Host.Outcome.next.injEq] at h; exact .inr ⟨rfl, h.symm⟩

@[simp] theorem runCommand_some (e : ErrCode) (body : State → State) (s : State) :
    runCommand (some e) body s = .next (completeError e s) := rfl

@[simp] theorem runCommand_none (body : State → State) (s : State) :
    runCommand none body s = .next (completeOk (body s)) := rfl

theorem keyCheck_none {cfg : HwConfig} {n : Nat} : keyCheck cfg n = none ↔ 1 ≤ n ∧ n ≤ cfg.bufBytes := by
  simp only [keyCheck]; split <;> simp_all

theorem keyCheck_some {cfg : HwConfig} {n : Nat} {e : ErrCode} (h : keyCheck cfg n = some e) : e = .length := by
  simp only [keyCheck] at h; split at h <;> simp_all

/-- ERR_UNKEYED applies exactly under `fail_closed` to an unkeyed context (R317). -/
theorem unkeyedStop_iff {cfg : HwConfig} {b : Bank} :
    unkeyedStop cfg b = true ↔ cfg.unkeyedPolicy = .failClosed ∧ b.keyed = false := by
  simp [unkeyedStop]

theorem unkeyedStop_false {cfg : HwConfig} {b : Bank} :
    unkeyedStop cfg b = false ↔ cfg.unkeyedPolicy = .compatZero ∨ b.keyed = true := by
  cases h : cfg.unkeyedPolicy <;> cases h' : b.keyed <;> simp [unkeyedStop, h, h']

theorem blockCheck_none {cfg : HwConfig} {b : Bank} {n : Nat} :
    blockCheck cfg b n = none ↔ unkeyedStop cfg b = false ∧ n % 8 = 0 ∧ n ≤ cfg.bufBytes / 4 := by
  simp only [blockCheck]
  cases unkeyedStop cfg b <;> simp only [Bool.false_eq_true, if_false, if_true] <;> (try simp)
  by_cases h1 : n % 8 = 0 <;> by_cases h2 : cfg.bufBytes / 4 < n <;> simp [h1, h2] <;> omega

theorem streamCheck_none {cfg : HwConfig} {b : Bank} {n : Nat} :
    streamCheck cfg b n = none ↔ unkeyedStop cfg b = false ∧ n ≤ 512 ∧ n ≤ cfg.bufBytes := by
  simp only [streamCheck]
  cases unkeyedStop cfg b <;> simp only [Bool.false_eq_true, if_false, if_true] <;> (try simp)

/-- No check of a command reports ERR_OPCODE: that is the decoder's (R315). -/
theorem blockCheck_ne_opcode {cfg : HwConfig} {b : Bank} {n : Nat} : blockCheck cfg b n ≠ some .opcode := by
  simp only [blockCheck, ne_eq]
  split <;> (try split) <;> (try split) <;> simp

theorem streamCheck_ne_opcode {cfg : HwConfig} {b : Bank} {n : Nat} : streamCheck cfg b n ≠ some .opcode := by
  simp only [streamCheck, ne_eq]
  split <;> (try split) <;> simp

/-! ## Blocks of BUF through a function -/

@[simp] theorem wf_mapBlocks {m : Memory} (w : m.wf = true) (f : Block → Block) (n : Nat) :
    (mapBlocks f n m).wf = true := by
  induction n with
  | zero => exact w
  | succ n ih => exact wf_writeBlock ih n _

theorem below_mapBlocks {N : Nat} {m : Memory} (w : m.below N = true) (f : Block → Block) (n : Nat) (h : 32 * n ≤ N) :
    (mapBlocks f n m).below N = true := by
  induction n with
  | zero => exact w
  | succ n ih => exact below_writeBlock (ih (by omega)) n _ (by omega)

/-- Bytes past the data are as before. -/
theorem read_mapBlocks_past {m : Memory} (w : m.wf = true) (f : Block → Block) (n : Nat) {a : Nat} (h : 32 * n ≤ a) :
    (mapBlocks f n m).read a = m.read a := by
  induction n with
  | zero => rfl
  | succ n ih =>
    simp only [mapBlocks]
    rw [read_writeBlock_other (wf_mapBlocks w f n) n _ (by omega), ih (by omega)]

/-- Each block of the data is its own image: blocks are independent (R271). -/
theorem readBlock_mapBlocks {m : Memory} (w : m.wf = true) (f : Block → Block) (n k : Nat) :
    readBlock (mapBlocks f n m) k = if k < n then f (readBlock m k) else readBlock m k := by
  induction n with
  | zero => rfl
  | succ n ih =>
    simp only [mapBlocks]
    by_cases e : k = n
    · subst e
      rw [readBlock_writeBlock_same (wf_mapBlocks w f k), ih, if_neg (by omega), if_pos (by omega)]
    · rw [readBlock_writeBlock_other (wf_mapBlocks w f n) _ e, ih]
      by_cases h : k < n
      · rw [if_pos h, if_pos (by omega)]
      · rw [if_neg h, if_neg (by omega)]

/-- Blocks through a function and then through one that undoes it: BUF as it was. -/
theorem mapBlocks_mapBlocks {m : Memory} (w : m.wf = true) {f g : Block → Block} (h : ∀ x, g (f x) = x) (n : Nat) :
    mapBlocks g n (mapBlocks f n m) = m := by
  have wf := wf_mapBlocks w f n
  apply Memory.eq_of_read_eq (wf_mapBlocks wf g n) w
  intro a
  by_cases ha : 32 * n ≤ a
  · rw [read_mapBlocks_past wf g n ha, read_mapBlocks_past w f n ha]
  · have hb : readBlock (mapBlocks g n (mapBlocks f n m)) (a / 32) = readBlock m (a / 32) := by
      rw [readBlock_mapBlocks wf, readBlock_mapBlocks w, if_pos (by omega), if_pos (by omega), h]
    exact read_eq_of_readBlock_eq hb (by omega) (by omega)

/-! ## Keystream bytes in BUF -/

@[simp] theorem length_keystreamBytes (S : Words128) (n : Nat) : (keystreamBytes S n).length = n := by
  simp [keystreamBytes]

/-- What BUF reads as after the keystream bytes are written. -/
theorem read_keystream {m : Memory} (w : m.wf = true) (S : Words128) (n a : Nat) :
    (m.writeBytes 0 (keystreamBytes S n)).read a = if a < n then keystreamByte S a else m.read a := by
  rw [Memory.read_writeBytes w]
  simp only [length_keystreamBytes, Nat.zero_le, true_and, Nat.zero_add, Nat.sub_zero]
  by_cases h : a < n
  · simp [h, keystreamBytes]
  · simp [h]

/-! ## The commands -/

/-- The key KEYSCHED reads depends on the first bytes of BUF alone. -/
theorem readKey_congr {m n : Memory} {len : Nat} (h : ∀ i, i < len → m.read i = n.read i) :
    readKey m len = readKey n len := by
  simp only [readKey, Memory.readBytes, Nat.zero_add]
  apply List.map_congr_left
  intro i hi
  exact h i (List.mem_range.mp hi)

/-- Every command completes: with an error and no other effect, or without one and with its effect. -/
theorem exec_completes (i : Instr) (s : State) :
    (∃ e : ErrCode, e ≠ .opcode ∧ i ≠ .zeroize0 ∧ i ≠ .zeroize1 ∧ exec i s = .next (completeError e s)) ∨
    exec i s = .next (completeOk (match i with
      | .keysched0 => keyschedBody .c0 s
      | .keysched1 => keyschedBody .c1 s
      | .encrypt => blockBody encryptBlock s
      | .decrypt => blockBody decryptBlock s
      | .keystream => keystreamBody s
      | .zeroize0 => zeroizeBody .c0 s
      | .zeroize1 => zeroizeBody .c1 s)) := by
  cases i <;> simp only [exec, execKeysched0, execKeysched1, execEncrypt, execDecrypt, execKeystream, execZeroize0,
    execZeroize1, keyschedCommand, blockCommand, zeroizeCommand]
  case keysched0 | keysched1 =>
    cases h : keyCheck s.cfg s.curLen.toNat with
    | none => exact .inr rfl
    | some e => exact .inl ⟨e, by rw [keyCheck_some h]; decide, by decide, by decide, rfl⟩
  case encrypt | decrypt =>
    cases h : blockCheck s.cfg s.bank0 s.curLen.toNat with
    | none => exact .inr rfl
    | some e => exact .inl ⟨e, fun he => blockCheck_ne_opcode (he ▸ h), by decide, by decide, rfl⟩
  case keystream =>
    cases h : streamCheck s.cfg s.bank1 s.curLen.toNat with
    | none => exact .inr rfl
    | some e => exact .inl ⟨e, fun he => streamCheck_ne_opcode (he ▸ h), by decide, by decide, rfl⟩
  case zeroize0 | zeroize1 => exact .inr rfl

end Sys2Proof.Machine
end

