-- ==== Sys2Proof/Laws/Decode.lean ====
section
/-! SUPPORT. Laws of the fields of a command word and of the decoder. -/

namespace Sys2Proof

/-- A command word is its fields (R110). -/
theorem eq_of_fieldsOf_eq {w v : Word} (h : fieldsOf w = fieldsOf v) : w = v := by
  simp only [fieldsOf, CmdFields.mk.injEq] at h
  obtain ⟨h1, h2, h3⟩ := h
  apply BitVec.eq_of_getLsbD_eq
  intro i hi
  by_cases a : i < 4
  · have := congrArg (fun x => x.getLsbD i) h1
    simpa [a] using this
  · by_cases b : i = 4
    · have := congrArg (fun x => x.getLsbD 0) h2
      subst b
      simpa using this
    · have := congrArg (fun x => x.getLsbD (i - 5)) h3
      have e : 5 + (i - 5) = i := by omega
      have e' : i - 5 < 27 := by omega
      simpa [e, e'] using this

/-- The fields that decode to a command are that command's fields. -/
theorem fields_of_decodeFields_ok {f : CmdFields} {i : Instr} (h : decodeFields f = .ok i) : f = i.fields := by
  obtain ⟨op, ctx, rsvd⟩ := f
  by_cases hr : rsvd = 0
  · subst hr
    have key : ∀ (op : BitVec 4) (ctx : BitVec 1), (match decodeFields ⟨op, ctx, 0⟩ with
      | .ok i => i.fields == ⟨op, ctx, 0⟩ | .error _ => true) = true := by decide
    have := key op ctx
    rw [h] at this
    exact (eq_of_beq this).symm
  · rw [decodeFields, if_pos hr] at h
    cases h

@[simp] theorem decodeFields_fields_ok (i : Instr) : decodeFields i.fields = .ok i := by cases i <;> rfl

/-- Fields are legal exactly when they decode (R113). -/
theorem legal_iff_decodeFields_ok {f : CmdFields} : f.legal = true ↔ ∃ i, decodeFields f = .ok i := by
  constructor
  · obtain ⟨op, ctx, rsvd⟩ := f
    intro h
    simp only [CmdFields.legal, CmdFields.rsvdZero, Bool.and_eq_true, beq_iff_eq] at h
    obtain ⟨⟨rfl, h2⟩, h3⟩ := h
    have key : ∀ (op : BitVec 4) (ctx : BitVec 1), CmdFields.opKnown ⟨op, ctx, 0⟩ = true →
        CmdFields.ctxAllowed ⟨op, ctx, 0⟩ = true →
        (match decodeFields ⟨op, ctx, 0⟩ with | .ok _ => true | .error _ => false) = true := by decide
    have := key op ctx h2 h3
    split at this
    · rename_i i hi; exact ⟨i, hi⟩
    · simp at this
  · rintro ⟨i, hi⟩
    rw [fields_of_decodeFields_ok hi]; cases i <;> rfl

end Sys2Proof
end

