-- ==== Sys2Proof/Laws/HostBus.lean ====
section
/-! SUPPORT. Where the host's accesses land, and what one host turn can do. -/

namespace Sys2Proof.Machine

/-! ## Where an access lands -/

@[simp] theorem busTarget_window (cfg : HwConfig) (width off : Nat) :
    busTarget cfg width (cfg.engineBase + off) = offsetTarget cfg.bufBytes width off := by
  have h : ¬ cfg.engineBase + off < cfg.engineBase := by omega
  simp [busTarget, h]

@[simp] theorem offsetTarget_cmd (n : Nat) : offsetTarget n 32 0x000 = .ok (.reg .cmd) := rfl
@[simp] theorem offsetTarget_len (n : Nat) : offsetTarget n 32 0x004 = .ok (.reg .len) := rfl
@[simp] theorem offsetTarget_status (n : Nat) : offsetTarget n 32 0x008 = .ok (.reg .status) := rfl
@[simp] theorem offsetTarget_irqen (n : Nat) : offsetTarget n 32 0x00C = .ok (.reg .irqen) := rfl

/-- An 8-bit access inside BUF lands on its byte (R81). -/
theorem offsetTarget_bufByte {n a : Nat} (h : a < n) : offsetTarget n 8 (0x1000 + a) = .ok (.bufByte a) := by
  have h1 : ¬ 0x1000 + a < 0x0010 := by omega
  have h2 : ¬ 0x1000 + a < 0x1000 := by omega
  have h3 : 0x1000 + a < 0x1000 + n := by omega
  have h4 : 0x1000 + a - 0x1000 = a := by omega
  simp only [offsetTarget, bufTarget, h1, h2, h3, h4, if_false, if_true]

/-- An aligned 32-bit access inside BUF lands on its word (R81). -/
theorem offsetTarget_bufWord {n a : Nat} (ha : a % 4 = 0) (h : a + 4 ≤ n) :
    offsetTarget n 32 (0x1000 + a) = .ok (.bufWord a) := by
  have h1 : ¬ 0x1000 + a < 0x0010 := by omega
  have h2 : ¬ 0x1000 + a < 0x1000 := by omega
  have h3 : 0x1000 + a < 0x1000 + n := by omega
  have h4 : 0x1000 + a - 0x1000 = a := by omega
  have h5 : ¬ (32 : Nat) = 8 := by decide
  simp only [offsetTarget, bufTarget, h1, h2, h3, h4, h5, ha, h, and_self, if_false, if_true]

/-- What a supported target says about the access. -/
theorem offsetTarget_ok {n width off : Nat} {t : Target} (h : offsetTarget n width off = .ok t) :
    (width = 32 ∧ ∃ r : Reg, off = r.offset ∧ t = .reg r) ∨
    (width = 8 ∧ ∃ a, off = 0x1000 + a ∧ a < n ∧ t = .bufByte a) ∨
    (width = 32 ∧ ∃ a, off = 0x1000 + a ∧ a % 4 = 0 ∧ a + 4 ≤ n ∧ t = .bufWord a) := by
  simp only [offsetTarget] at h
  by_cases h0 : off < 0x0010
  · rw [if_pos h0, registerTarget] at h
    by_cases h1 : width = 32 ∧ off % 4 = 0
    · rw [if_pos h1] at h
      left
      refine ⟨h1.1, ?_⟩
      have hc : off = 0 ∨ off = 4 ∨ off = 8 ∨ off = 12 := by omega
      rcases hc with rfl | rfl | rfl | rfl <;> simp at h <;> subst h
      · exact ⟨.cmd, rfl, rfl⟩
      · exact ⟨.len, rfl, rfl⟩
      · exact ⟨.status, rfl, rfl⟩
      · exact ⟨.irqen, rfl, rfl⟩
    · rw [if_neg h1] at h; simp at h
  · rw [if_neg h0] at h
    by_cases h1 : off < 0x1000
    · rw [if_pos h1] at h; simp at h
    · rw [if_neg h1] at h
      by_cases h2 : off < 0x1000 + n
      · rw [if_pos h2, bufTarget] at h
        by_cases h3 : width = 8
        · rw [if_pos h3] at h
          simp only [Except.ok.injEq] at h
          exact .inr (.inl ⟨h3, off - 0x1000, by omega, by omega, h.symm⟩)
        · rw [if_neg h3] at h
          by_cases h4 : width = 32 ∧ (off - 0x1000) % 4 = 0 ∧ off - 0x1000 + 4 ≤ n
          · rw [if_pos h4] at h
            simp only [Except.ok.injEq] at h
            exact .inr (.inr ⟨h4.1, off - 0x1000, by omega, h4.2.1, h4.2.2, h.symm⟩)
          · rw [if_neg h4] at h; simp at h
      · rw [if_neg h2] at h; simp at h

/-- The address of an access that lands. -/
theorem busTarget_ok {cfg : HwConfig} {width addr : Nat} {t : Target} (h : busTarget cfg width addr = .ok t) :
    cfg.engineBase ≤ addr ∧ offsetTarget cfg.bufBytes width (addr - cfg.engineBase) = .ok t := by
  simp only [busTarget] at h
  split at h
  · simp at h
  · exact ⟨by omega, h⟩

/-! ## One access -/

/-- What a read does: data arrives; only a BUF read of a busy engine uses up a free value. -/
theorem readTarget_eq (t : Target) (s : State) :
    ∃ d n, readTarget t s = { s with received := d :: s.received, draws := n } ∧
      (s.busy = false → n = s.draws) := by
  cases t with
  | reg r => exact ⟨.word (readReg r s), s.draws, rfl, fun _ => rfl⟩
  | bufByte a =>
    cases hb : s.busy with
    | false => exact ⟨.byte (s.buf.read a), s.draws, by simp [readTarget, readBufByte, hb, receive], fun _ => rfl⟩
    | true => exact ⟨.byte ((Config.busyRead s.draws).setWidth 8), s.draws + 1,
        by simp [readTarget, readBufByte, hb, receive, draw], fun h => by simp at h⟩
  | bufWord a =>
    cases hb : s.busy with
    | false => exact ⟨.word (s.buf.readWord a), s.draws, by simp [readTarget, readBufWord, hb, receive], fun _ => rfl⟩
    | true => exact ⟨.word (Config.busyRead s.draws), s.draws + 1,
        by simp [readTarget, readBufWord, hb, receive, draw], fun h => by simp at h⟩

/-- What a write does, one case for each kind of target and for an idle or a busy engine. -/
theorem writeTarget_cases (t : Target) (v : Word) (s : State) :
    (t = .reg .cmd ∧ s.busy = false ∧ writeTarget t v s = acceptCommand v s) ∨
    (s.busy = true ∧ (t = .reg .cmd ∨ (∃ a, t = .bufByte a) ∨ ∃ a, t = .bufWord a) ∧
      writeTarget t v s = dropWrite s) ∨
    (t = .reg .len ∧ writeTarget t v s = { s with len := v }) ∨
    (t = .reg .status ∧ writeTarget t v s = clearStatus v s) ∨
    (t = .reg .irqen ∧ writeTarget t v s = { s with ie := v.getLsbD 0 }) ∨
    (∃ a, t = .bufByte a ∧ s.busy = false ∧ writeTarget t v s = s.withBuf (s.buf.write a (v.setWidth 8))) ∨
    (∃ a, t = .bufWord a ∧ s.busy = false ∧ writeTarget t v s = s.withBuf (s.buf.writeWord a v)) := by
  cases t with
  | reg r => cases r <;> cases hb : s.busy <;> simp [writeTarget, writeReg, hb]
  | bufByte a => cases hb : s.busy <;> simp [writeTarget, writeBufByte, hb]
  | bufWord a => cases hb : s.busy <;> simp [writeTarget, writeBufWord, hb]

/-- A bus error while BUSY = 1 is noted and nothing else happens; with the engine idle it is a fault. -/
@[simp] theorem busError_busy {s : State} (e : Fault) (h : s.busy = true) :
    busError e s = .next { s with hostStopped := some e } := by simp [busError, h]

@[simp] theorem busError_idle {s : State} (e : Fault) (h : s.busy = false) : busError e s = .fault e := by
  simp [busError, h]

/-- What a bus error can do when it answers a next state. -/
theorem busError_next {s t : State} {e : Fault} (h : busError e s = .next t) :
    s.busy = true ∧ t = { s with hostStopped := some e } := by
  cases hb : s.busy <;> simp [hb] at h
  exact ⟨rfl, h.symm⟩

/-- What one host turn can do when it answers a next state: nothing, a WAIT passed, a bus error noted while BUSY = 1, a
supported read, a supported write. -/
theorem hostTurn_cases {s t : State} (h : hostTurn s = .next t) :
    t = s ∨
    (∃ rest, s.hostProg = .wait :: rest ∧ s.busy = false ∧ t = { s with hostProg := rest }) ∨
    (∃ e rest, s.busy = true ∧ t = { s with hostProg := rest, hostStopped := some e }) ∨
    (∃ width addr rest target, s.hostProg = .access (.read width addr) :: rest ∧
      busTarget s.cfg width addr = .ok target ∧ t = readTarget target { s with hostProg := rest }) ∨
    (∃ width addr v rest target, s.hostProg = .access (.write width addr v) :: rest ∧
      busTarget s.cfg width addr = .ok target ∧ t = writeTarget target v { s with hostProg := rest }) := by
  have hs : s.hostStopped = none ∨ ∃ e, s.hostStopped = some e := by cases s.hostStopped <;> simp
  rcases hs with hs | ⟨e, hs⟩
  · have h : hostOperation s = .next t := by rw [← h, hostTurn, hs]
    simp only [hostOperation] at h
    split at h
    · cases h; exact .inl rfl
    · rename_i a rest hp
      right; right
      simp only [hostAccess] at h
      split at h
      · rename_i width addr
        split at h
        · rename_i target ht
          cases h; exact .inr (.inl ⟨width, addr, rest, target, hp, ht, rfl⟩)
        · obtain ⟨hb, rfl⟩ := busError_next h
          exact .inl ⟨_, rest, hb, rfl⟩
      · rename_i width addr v
        split at h
        · rename_i target ht
          cases h; exact .inr (.inr ⟨width, addr, v, rest, target, hp, ht, rfl⟩)
        · obtain ⟨hb, rfl⟩ := busError_next h
          exact .inl ⟨_, rest, hb, rfl⟩
    · rename_i rest hp
      cases h
      split
      · exact .inl rfl
      · rename_i hb
        exact .inr (.inl ⟨rest, hp, by simpa using hb, rfl⟩)
  · simp only [hostTurn, hs] at h
    obtain ⟨hb, rfl⟩ := busError_next h
    exact .inr (.inr (.inl ⟨e, s.hostProg, hb, rfl⟩))

/-- A host turn never ends the run while BUSY = 1: the engine's completion step is still to come (R310). -/
theorem hostTurn_of_busy {s : State} (hb : s.busy = true) : ∃ t, hostTurn s = .next t := by
  cases hs : s.hostStopped with
  | some e => exact ⟨_, by simp only [hostTurn, hs]; exact busError_busy e hb⟩
  | none =>
    simp only [hostTurn, hs, hostOperation]
    split
    · exact ⟨_, rfl⟩
    · simp only [hostAccess]
      split <;> split <;> first | exact ⟨_, rfl⟩ | exact ⟨_, busError_busy _ hb⟩
    · exact ⟨_, rfl⟩

end Sys2Proof.Machine
end

