-- ==== Sys2Proof/Laws/KeySchedule.lean ====
section
/-! SUPPORT. Laws of the key words, the chunks and the parts of a chunk's processing (R210 to R222). -/

namespace Sys2Proof.Machine

/-! ## Key words -/

/-- The word of a key group, with the shifts of R210. -/
theorem groupWord_eq (P : OpenParams) (A B C D : Byte) : groupWord P A B C D =
    (((P.sboxB (P.sboxB D)).setWidth 32 <<< 24) ||| ((P.sboxA (P.sboxA B)).setWidth 32 <<< 16) |||
          ((P.sboxB (P.sboxB C)).setWidth 32 <<< 8) ||| ((P.sboxA (P.sboxA A)).setWidth 32)) := by
  simp only [groupWord, twiceA, twiceB]
  generalize P.sboxB (P.sboxB D) = d
  generalize P.sboxA (P.sboxA B) = b
  generalize P.sboxB (P.sboxB C) = c
  generalize P.sboxA (P.sboxA A) = a
  apply BitVec.eq_of_getLsbD_eq
  intro i hi
  simp only [BitVec.getLsbD_append, BitVec.getLsbD_or, BitVec.getLsbD_shiftLeft, BitVec.getLsbD_setWidth, hi, decide_true, Bool.true_and]
  by_cases h0 : i < 8
  · have h1 : i < 16 := by omega
    have h2 : i < 24 := by omega
    simp [h0, h1, h2]
  · have z : a.getLsbD i = false := BitVec.getLsbD_of_ge _ _ (by omega)
    by_cases h1 : i < 16
    · have h2 : i < 24 := by omega
      have h3 : i - 8 < 8 := by omega
      have h4 : i - 8 < 32 := by omega
      simp [h0, h1, h2, h3, h4, z]
    · have z1 : c.getLsbD (i-8) = false := BitVec.getLsbD_of_ge _ _ (by omega)
      have h3 : ¬ i - 8 < 8 := by omega
      by_cases h2 : i < 24
      · have h4 : i - 8 - 8 < 8 := by omega
        have h5 : i - 16 < 32 := by omega
        have h6 : i - 8 - 8 = i - 16 := by omega
        simp [h0, h1, h2, h3, h5, h6, z, z1]
        intro h; omega
      · have z2 : b.getLsbD (i-16) = false := BitVec.getLsbD_of_ge _ _ (by omega)
        have h4 : ¬ i - 8 - 8 < 8 := by omega
        have h5 : i - 24 < 32 := by omega
        have h6 : i - 8 - 8 - 8 = i - 24 := by omega
        simp [h0, h1, h2, h3, h4, h5, h6, z, z1, z2]

/-- The words of whole groups. -/
theorem groupWords_of_length (P : OpenParams) (n : Nat) (l : List Byte) (hl : l.length = 4 * n) :
    (groupWords P l).length = n ∧ ∀ g, g < n → (groupWords P l)[g]? = some (groupWord P (l.getD (4*g) 0) (l.getD (4*g+1) 0) (l.getD (4*g+2) 0) (l.getD (4*g+3) 0)) := by
  induction n generalizing l with
  | zero =>
    have : l = [] := List.length_eq_zero_iff.mp (by omega)
    subst this; simp [groupWords]
  | succ n ih =>
    match l, hl with
    | a :: b :: c :: d :: r, hl =>
      simp only [List.length_cons] at hl
      obtain ⟨h1, h2⟩ := ih r (by omega)
      refine ⟨by simp [groupWords, h1], ?_⟩
      intro g hg
      cases g with
      | zero => simp [groupWords]
      | succ g =>
        simp only [groupWords, List.getElem?_cons_succ]
        rw [h2 g (by omega)]
        rw [show 4 * (g+1) = 4*g+1+1+1+1 by omega]
        simp

@[simp] theorem length_padKey (key : List Byte) : (padKey key).length = 4 * ((key.length + 3) / 4) := by
  simp [padKey]; omega

/-- A padded key reads as the key, 0 past its end. -/
theorem getD_padKey (key : List Byte) (i : Nat) : (padKey key).getD i 0 = key.getD i 0 := by
  simp only [padKey, List.getD_eq_getElem?_getD]
  by_cases h : i < key.length
  · rw [List.getElem?_append_left h]
  · rw [List.getElem?_append_right (by omega), show key[i]? = none from List.getElem?_eq_none (by omega)]
    rw [List.getElem?_replicate]; split <;> simp

/-! ## Chunks -/

/-- Up to 128 key words are one chunk. -/
theorem chunkWords_zero {kb : List Word} (h : kb.length ≤ 128) : chunkWords kb 0 = kb := by
  simp only [chunkWords, Nat.mul_zero, List.drop_zero]; exact List.take_of_length_le h

theorem length_chunkWords (kb : List Word) (k : Nat) : (chunkWords kb k).length = min 128 (kb.length - 128 * k) := by
  simp [chunkWords]

/-- 1 to 128 key words take one pass. -/
theorem scheduleWords_single (P : OpenParams) (cfg : HwConfig) {kb : List Word} (h1 : 1 ≤ kb.length)
    (h : kb.length ≤ 128) : scheduleWords P cfg kb = scheduleChunk P cfg kb 0 scheduleStart := by
  have : chunkCount kb.length = 1 := by simp [chunkCount]; omega
  simp [scheduleWords, this, scheduleChunks]

@[simp] theorem chunkStartRi_zero (cfg : HwConfig) : chunkStartRi cfg 0 = 0 := by simp [chunkStartRi]

theorem loadChunk_kZero (l : List Word) : loadChunk kZero l = kBuild fun p => l.getD p.val 0 := by
  apply words_ext; intro i; simp [loadChunk]

theorem length_premix (chunk : List Word) (S : Words128) (h : chunk.length ≤ 128) :
    (premix chunk S).length = chunk.length := by
  simp [premix]; omega

/-- A pre-mixed chunk, word by word (R217). -/
theorem getD_premix (chunk : List Word) (S : Words128) (p : Fin 128) (h : p.val < chunk.length) :
    (premix chunk S).getD p.val 0 = premixWord (chunk.getD p.val 0) (kRead S p) := by
  simp only [premix, List.getD_eq_getElem?_getD, List.getElem?_zipWith, getD_toList_eq_kRead]
  rw [List.getElem?_eq_getElem h]; rfl

@[simp] theorem foldedWords_same (cfg : HwConfig) (l : List Word) : foldedWords cfg l l = l := by
  simp only [foldedWords]; cases cfg.snapshotKeyword <;> rfl

theorem foldedWords_eq (cfg : HwConfig) (original mixed : List Word) :
    foldedWords cfg original mixed = if cfg.snapshotKeyword = .original then original else mixed := by
  simp only [foldedWords]; cases cfg.snapshotKeyword <;> rfl

/-- The first chunks as a fold in rising order (R222). -/
theorem scheduleChunks_eq_foldl (P : OpenParams) (cfg : HwConfig) (kb : List Word) (n : Nat) :
    scheduleChunks P cfg kb n = (List.range n).foldl (fun t k => scheduleChunk P cfg kb k t) scheduleStart := by
  induction n with
  | zero => rfl
  | succ n ih => rw [List.range_succ, List.foldl_append]; simp only [scheduleChunks, ih]; rfl

theorem chunkWords_zero_getD (kb : List Word) {p : Nat} (h : p < 128) : (chunkWords kb 0)[p]? = kb[p]? := by
  simp [chunkWords, List.getElem?_take_of_lt h]

end Sys2Proof.Machine
end

