-- ==== Sys2Proof/Laws/Mixing.lean ====
section
/-! SUPPORT. What the NLFSR, the pass and the generator are, without their bodies being unfolded elsewhere (R147, R192,
R253). -/

namespace Sys2Proof.Machine

theorem nlfsr_eq (P : OpenParams) (r : Word) : nlfsr P r = nlfsrRounds P 64 r := by unfold nlfsr; rfl

theorem pass_eq (P : OpenParams) (ri : RandomIndex) (K : Kdsb) :
    pass P ri K = outerRound P (outerRound P (outerRound P (outerRound P (K, ri)))) := by unfold pass; rfl

theorem generate_eq (P : OpenParams) (K : Kdsb) (S : Words128) : generate P K S = generateSteps P 128 ⟨K, S, 0⟩ := by
  unfold generate; rfl

/-- One NLFSR round, bit by bit (R147). -/
theorem getLsbD_nlfsrRound (P : OpenParams) (r : Word) (i : Nat) (hi : i < 32) : (nlfsrRound P r).getLsbD i = if i = 31 then nlfsrFeedback P r else r.getLsbD (i+1) := by
  simp only [nlfsrRound, BitVec.getLsbD_or, BitVec.getLsbD_ushiftRight, BitVec.getLsbD_shiftLeft, hi, decide_true, Bool.true_and]
  by_cases h : i = 31
  · subst h
    have : r.getLsbD (1 + 31) = false := BitVec.getLsbD_of_ge _ _ (by omega)
    rw [this]; simp
  · have : i < 31 := by omega
    simp [h, this, Nat.add_comm]

/-- NLFSR rounds as a fold (R147). -/
theorem nlfsrRounds_eq_foldl (P : OpenParams) (n : Nat) (r : Word) :
    nlfsrRounds P n r = (List.range n).foldl (fun x _ => nlfsrRound P x) r := by
  induction n generalizing r with
  | zero => rfl
  | succ n ih => rw [List.range_succ_eq_map, List.foldl_cons, List.foldl_map]; exact ih _

/-- The round operators of an outer round as a fold over the counters (R191). -/
theorem roundOps_eq_foldl (P : OpenParams) (n : Nat) (m : Kdsb × RandomIndex) :
    roundOps P n m = (List.range n).foldl (fun m n => roundOp P (Fin.ofNat 128 n) m.2 m.1) m := by
  induction n with
  | zero => rfl
  | succ n ih => rw [List.range_succ, List.foldl_append]; simp only [roundOps, ih]; rfl

end Sys2Proof.Machine
end

