-- ==== Sys2Proof/Laws/PerInstr.lean ====
section
/-! SUPPORT. Facts about the commands as syntax, one lemma per command. -/

namespace Sys2Proof.Laws.FieldsLegal

/-- The command's fields are legal and are the fields of its word, which its word alone has (R110, R113). -/
def Statement (i : Instr) : Prop :=
  i.fields.legal = true ∧ fieldsOf (encode i) = i.fields ∧ ∀ w, fieldsOf w = i.fields → w = encode i

/-- The word of a command is the only one with its fields, once it has them. -/
theorem of_fieldsOf_encode {i : Instr} (l : i.fields.legal = true) (h : fieldsOf (encode i) = i.fields) : Statement i :=
  ⟨l, h, fun _ hw => eq_of_fieldsOf_eq (hw.trans h.symm)⟩

theorem keysched0 : Statement .keysched0 := of_fieldsOf_encode rfl rfl
theorem keysched1 : Statement .keysched1 := of_fieldsOf_encode rfl rfl
theorem encrypt : Statement .encrypt := of_fieldsOf_encode rfl rfl
theorem decrypt : Statement .decrypt := of_fieldsOf_encode rfl rfl
theorem keystream : Statement .keystream := of_fieldsOf_encode rfl rfl
theorem zeroize0 : Statement .zeroize0 := of_fieldsOf_encode rfl rfl
theorem zeroize1 : Statement .zeroize1 := of_fieldsOf_encode rfl rfl

end Sys2Proof.Laws.FieldsLegal
end

