-- ==== Sys2Proof/Laws/Step.lean ====
section
/-! SUPPORT. What one step can do: one case for each agent. -/

namespace Sys2Proof.Machine

/-- The step of each kind of turn. -/
theorem step_host {s : State} {ts : List Turn} (h : s.turns = .host :: ts) :
    step s = hostTurn { s with turns := ts } := by
  simp [step, takeTurn, h]

theorem step_engine {s : State} {ts : List Turn} (h : s.turns = .engine :: ts) :
    step s = engineTurn { s with turns := ts } := by
  simp [step, takeTurn, h]

theorem step_reset {s : State} {ts : List Turn} (h : s.turns = .reset :: ts) :
    step s = .next (resetEngine { s with turns := ts }) := by
  simp [step, takeTurn, h]

theorem step_no_schedule {s : State} (h : s.turns = []) :
    step s = if s.busy then completionStep s else hostTurn s := by
  simp [step, takeTurn, h]

/-- A completion step answers a next state: a command's, or ERR_OPCODE. -/
theorem completionStep_cases (s : State) :
    (∃ e, decodeFields s.latched = .error e ∧ completionStep s = .next (completeError .opcode s)) ∨
    (∃ i, decodeFields s.latched = .ok i ∧ completionStep s = exec i s) := by
  cases h : decodeFields s.latched with
  | error e => exact .inl ⟨e, rfl, by simp [completionStep, h]⟩
  | ok i => exact .inr ⟨i, rfl, by simp [completionStep, h]⟩

/-- What one step can do when it answers a next state: `s` with the turn used up, then a host turn, a completion step
of a busy engine, nothing (an idle engine's turn), or a reset. -/
theorem step_cases {s t : State} (h : step s = .next t) :
    ∃ ts, (s.turns = [] ∧ ts = [] ∨ ∃ x, s.turns = x :: ts) ∧
      (hostTurn { s with turns := ts } = .next t ∨
        (s.busy = true ∧ completionStep { s with turns := ts } = .next t) ∨
        (s.busy = false ∧ t = { s with turns := ts }) ∨
        (s.turns = .reset :: ts ∧ t = resetEngine { s with turns := ts })) := by
  cases ht : s.turns with
  | nil =>
    have e : { s with turns := [] } = s := by cases s; simp_all
    rw [step_no_schedule ht] at h
    refine ⟨[], .inl ⟨rfl, rfl⟩, ?_⟩
    rw [e]
    cases hb : s.busy with
    | true => right; left; simpa [hb] using h
    | false => left; simpa [hb] using h
  | cons x ts =>
    refine ⟨ts, .inr ⟨x, rfl⟩, ?_⟩
    cases x with
    | host => left; rw [← step_host ht]; exact h
    | engine =>
      rw [step_engine ht] at h
      cases hb : s.busy with
      | true => right; left; refine ⟨rfl, ?_⟩; simpa [engineTurn, hb] using h
      | false => right; right; left; refine ⟨rfl, ?_⟩; simp [engineTurn, hb] at h; exact h.symm
    | reset =>
      rw [step_reset ht] at h
      right; right; right
      simp only [Host.Outcome.next.injEq] at h
      exact ⟨rfl, h.symm⟩

/-! ## Steps of the host -/

/-- A host turn with an access is that access, the turn and the operation used up. -/
theorem step_hostDoes {s : State} {a : Access} {ts : List Turn} {rest : List HostOp} (h : s.hostDoes a ts rest) :
    step s = hostAccess a { s with turns := ts, hostProg := rest } := by
  rw [step_host h.1]; simp [hostTurn, hostOperation, h.2.1, h.2.2]

/-- The accesses that land are the supported ones (R70, R80, R81). -/
theorem offsetTarget_ok_iff {n width off : Nat} : (∃ t, offsetTarget n width off = .ok t) ↔ supportedAccess n width off := by
  constructor
  · rintro ⟨t, h⟩
    rcases offsetTarget_ok h with ⟨h1, r, h2, _⟩ | ⟨h1, a, h2, h3, _⟩ | ⟨h1, a, h2, h3, h4, _⟩
    · left; cases r <;> simp [Reg.offset] at h2 <;> omega
    · right; left; omega
    · right; right; omega
  · rintro (⟨rfl, h⟩ | ⟨rfl, h1, h2⟩ | ⟨rfl, h1, h2, h3⟩)
    · rcases h with rfl | rfl | rfl | rfl <;> exact ⟨_, rfl⟩
    · exact ⟨_, by rw [show off = 0x1000 + (off - 0x1000) by omega]; exact offsetTarget_bufByte (by omega)⟩
    · exact ⟨_, by rw [show off = 0x1000 + (off - 0x1000) by omega]; exact offsetTarget_bufWord (by omega) (by omega)⟩

/-! ## Turns -/

theorem readTarget_turns (t : Target) (s : State) : (readTarget t s).turns = s.turns := by
  obtain ⟨d, n, h, _⟩ := readTarget_eq t s; rw [h]

theorem writeTarget_turns (t : Target) (v : Word) (s : State) : (writeTarget t v s).turns = s.turns := by
  rcases writeTarget_cases t v s with ⟨_, _, h⟩ | ⟨_, _, h⟩ | ⟨_, h⟩ | ⟨_, h⟩ | ⟨_, h⟩ | ⟨_, _, _, h⟩ | ⟨_, _, _, h⟩ <;>
    rw [h] <;> simp

/-- A host turn leaves the schedule alone. -/
theorem hostTurn_turns {s t : State} (h : hostTurn s = .next t) : t.turns = s.turns := by
  rcases hostTurn_cases h with rfl | ⟨_, _, _, rfl⟩ | ⟨_, _, _, rfl⟩ | ⟨_, _, _, _, _, _, rfl⟩ |
    ⟨_, _, _, _, _, _, _, rfl⟩
  · rfl
  · rfl
  · rfl
  · rw [readTarget_turns]
  · rw [writeTarget_turns]

/-- No access of the host takes a busy engine out of its command. -/
theorem hostTurn_busy {s t : State} (h : hostTurn s = .next t) (hb : s.busy = true) : t.busy = true := by
  rcases hostTurn_cases h with rfl | ⟨_, _, _, rfl⟩ | ⟨_, _, _, rfl⟩ | ⟨_, _, rest, tg, _, _, rfl⟩ |
    ⟨_, _, v, rest, tg, _, _, rfl⟩
  · exact hb
  · exact hb
  · exact hb
  · obtain ⟨d, n, e, _⟩ := readTarget_eq tg { s with hostProg := rest }
    rw [e]; exact hb
  · rcases writeTarget_cases tg v { s with hostProg := rest } with
      ⟨_, _, e⟩ | ⟨_, _, e⟩ | ⟨_, e⟩ | ⟨_, e⟩ | ⟨_, e⟩ | ⟨_, _, _, e⟩ | ⟨_, _, _, e⟩ <;> rw [e] <;> simp [hb]

/-- A command leaves the schedule and the interface parameters alone. -/
theorem exec_outside {i : Instr} {s t : State} (h : exec i s = .next t) : t.turns = s.turns ∧ t.cfg = s.cfg := by
  rcases exec_completes i s with ⟨e, _, _, _, h'⟩ | h' <;> rw [h'] at h <;> cases h
  · exact ⟨rfl, rfl⟩
  · cases i <;> simp [keyschedBody, blockBody, keystreamBody, zeroizeBody]

/-- A completion step answers an idle engine with DONE = 1 (R312). -/
theorem completionStep_idle (s : State) : ∃ t, completionStep s = .next t ∧ t.busy = false ∧ t.done = true := by
  rcases completionStep_cases s with ⟨e, h, h'⟩ | ⟨i, h, h'⟩
  · exact ⟨_, h', rfl, rfl⟩
  · rcases exec_completes i s with ⟨e, he, -, -, h⟩ | h
    · exact ⟨_, h'.trans h, rfl, rfl⟩
    · exact ⟨_, h'.trans h, rfl, rfl⟩

theorem completionStep_outside {s t : State} (h : completionStep s = .next t) : t.turns = s.turns ∧ t.cfg = s.cfg := by
  rcases completionStep_cases s with ⟨e, _, h'⟩ | ⟨i, _, h'⟩
  · rw [h'] at h; cases h; exact ⟨rfl, rfl⟩
  · rw [h'] at h; exact exec_outside h

/-- Every step uses up one turn of the schedule. -/
theorem step_turns {s t : State} (h : step s = .next t) : t.turns = s.turns.tail := by
  obtain ⟨ts, h1, h2⟩ := step_cases h
  have : s.turns.tail = ts := by rcases h1 with ⟨a, b⟩ | ⟨x, a⟩ <;> simp [*]
  rw [this]
  rcases h2 with h2 | ⟨_, h2⟩ | ⟨_, rfl⟩ | ⟨_, rfl⟩
  · exact hostTurn_turns h2
  · exact (completionStep_outside h2).1
  · rfl
  · rfl

/-- A step of a busy engine never ends the run: the completion step is always still to come (R310). -/
theorem step_of_busy {s : State} (hb : s.busy = true) : ∃ t, step s = .next t := by
  cases h : s.turns with
  | nil =>
    obtain ⟨t, ht, -⟩ := completionStep_idle s
    exact ⟨t, by rw [step_no_schedule h, if_pos hb, ht]⟩
  | cons x ts =>
    cases x with
    | host => rw [step_host h]; exact hostTurn_of_busy hb
    | engine =>
      obtain ⟨t, ht, -⟩ := completionStep_idle { s with turns := ts }
      exact ⟨t, by rw [step_engine h, engineTurn, if_pos hb, ht]⟩
    | reset => exact ⟨_, step_reset h⟩

/-! ## No step is refused -/

theorem hostTurn_not_refused (s : State) (f : Refusal) : hostTurn s ≠ .refused f := by
  have be : ∀ e (s : State), busError e s ≠ .refused f := by
    intro e s; simp only [busError]; split <;> simp
  simp only [hostTurn]
  split
  · simp only [hostOperation]
    split
    · simp
    · simp only [hostAccess]; split <;> split <;> first | exact be _ _ | simp
    · simp
  · exact be _ _

theorem completionStep_not_refused (s : State) (f : Refusal) : completionStep s ≠ .refused f := by
  obtain ⟨t, h, _⟩ := completionStep_idle s; rw [h]; simp

theorem step_not_refused (s : State) (f : Refusal) : step s ≠ .refused f := by
  cases h : s.turns with
  | nil =>
    rw [step_no_schedule h]; split
    · exact completionStep_not_refused _ _
    · exact hostTurn_not_refused _ _
  | cons x ts =>
    cases x with
    | host => rw [step_host h]; exact hostTurn_not_refused _ _
    | engine =>
      rw [step_engine h, engineTurn]; split
      · exact completionStep_not_refused _ _
      · simp
    | reset => rw [step_reset h]; simp

end Sys2Proof.Machine
end

