-- ==== Sys2Proof/Tests/Slice0.lean ====
section
/-! SUPPORT. Tests: the checks of WellFormed, the decoder on words written from the encoding, vectors of
spec/95_test_vectors.md, and for each statement with hypotheses a witness that meets them. -/

namespace Sys2Proof.Tests
open Sys2Proof.Machine

/-! ## The machine under test -/

/-- Interface parameters with numerals (R7). -/
def cfgT : HwConfig := ⟨0x40000000, 4096, .failClosed, .original, .copyKdsb, false⟩

/-- After reset. -/
def sT : State := State.resetWith cfgT

/-- Context 0, 1 keyed, with `LEN` latched. -/
def keyed0 (len : Word) : State := { sT with bank0 := ⟨kZero, kZero, true⟩, curLen := len }
def keyed1 (len : Word) : State := { sT with bank1 := ⟨kZero, kZero, true⟩, curLen := len }

/-- A busy engine, its next turn its own, running the word `w` (R311). -/
def busyWith (w len : Word) : State := { acceptCommand w { sT with len := len } with turns := [.engine] }

/-- The host's turn, with one access to an offset of the window. -/
def doing (s : State) (a : Nat → Access) : State := { s with turns := [.host], hostProg := [.access (a 0x40000000)] }

/-- The host's turn, its program stopped by a bus error. -/
def stopped (s : State) : State := { s with turns := [.host], hostStopped := some .unmappedOffset }

/-- A test on the next state of an outcome. -/
def nextHas (o : Host.Outcome State Fault Refusal) (p : State → Bool) : Bool :=
  match o with
  | .next t => p t
  | _ => false

/-- An outcome that is a bus error. -/
def isFault (o : Host.Outcome State Fault Refusal) (f : Fault) : Bool :=
  match o with
  | .fault g => g == f
  | _ => false

/-- STATUS after the command word `w` is written to CMD of `s` with `len` in LEN and the engine has run it. -/
def statusAfter (s : State) (len : Word) (w : Nat) (status : Word) : Bool :=
  nextHas (step ({ s with len := len }.withFetchWord 32 w)) fun t => statusWord t == status

/-! ## Ill-formed terms are refused -/

/-- R113: RSVD bit 5 set (vector X6). -/
theorem test_rsvd_refused : CmdFields.legal ⟨1, 0, 1⟩ = false := by decide
/-- R115: opcodes 0 and 6 are reserved (vectors X1, X2). -/
theorem test_opcode_refused : CmdFields.opKnown ⟨0, 0, 0⟩ = false ∧ CmdFields.legal ⟨6, 0, 0⟩ = false := by decide
/-- R113: ENCRYPT.1 and KEYSTREAM.0 (vectors X3, X5). -/
theorem test_context_refused : CmdFields.ctxAllowed ⟨2, 1, 0⟩ = false ∧ CmdFields.legal ⟨4, 0, 0⟩ = false := by decide
/-- R72: BUF_BYTES 256 and 1000. -/
theorem test_bufBytes_refused : ({ cfgT with bufBytes := 256 } : HwConfig).bufBytesOk = false ∧
    ({ cfgT with bufBytes := 1000 } : HwConfig).wf = false := by decide
/-- R70: ENGINE_BASE is a multiple of 4. -/
theorem test_engineBase_refused : ({ cfgT with engineBase := 2 } : HwConfig).engineBaseOk = false := by decide
theorem test_parameters_accepted : cfgT.wf = true := by decide

/-! ## Words written out from R110 and R112: RSVD, CTX, OP -/

theorem test_decode_keysched0 : decodeTableWord 32 0b000000000000000000000000000_0_0001 = some .keysched0 := by decide
theorem test_decode_keysched1 : decodeTableWord 32 0b000000000000000000000000000_1_0001 = some .keysched1 := by decide
theorem test_decode_encrypt : decodeTableWord 32 0b000000000000000000000000000_0_0010 = some .encrypt := by decide
theorem test_decode_decrypt : decodeTableWord 32 0b000000000000000000000000000_0_0011 = some .decrypt := by decide
theorem test_decode_keystream : decodeTableWord 32 0b000000000000000000000000000_1_0100 = some .keystream := by decide
theorem test_decode_zeroize0 : decodeTableWord 32 0b000000000000000000000000000_0_0101 = some .zeroize0 := by decide
theorem test_decode_zeroize1 : decodeTableWord 32 0b000000000000000000000000000_1_0101 = some .zeroize1 := by decide
/-- X1 to X6, and RSVD's top bit. -/
theorem test_decode_illegal :
    [0x0, 0x6, 0xF, 0x12, 0x13, 0x4, 0x21, 0x80000001].all (fun w => (decodeTableWord 32 w).isNone) = true := by decide

/-! ## Commands (vectors of 95_test_vectors.md, 2.8) -/

/-- X13. -/
theorem test_keysched0_length : statusAfter sT 0 0x01 0x036 = true := by decide +kernel
/-- X15's STATUS, for a key of 8 bytes. -/
theorem test_keysched0_keys : statusAfter sT 8 0x01 0x102 = true := by decide +kernel
/-- X14. -/
theorem test_keysched1_length : statusAfter sT 4097 0x11 0x036 = true := by decide +kernel
/-- P3: after KEYSCHED.1 and KEYSTREAM STATUS is 0x202. -/
theorem test_keysched1_keys : statusAfter sT 8 0x11 0x202 = true := by decide +kernel
/-- X20, B5: ENCRYPT under `compat_zero` of the block (1, .., 8) in BUF. -/
theorem test_encrypt_bytes :
    nextHas (execEncrypt { sT with
      cfg := { cfgT with unkeyedPolicy := .compatZero }, curLen := 8
      buf := writeBlock [] 0 ⟨1, 2, 3, 4, 5, 6, 7, 8⟩ }) (fun t =>
        t.buf.readWord 0 == 0xFF9E3534 && t.buf.readWord 28 == 0xA83A6F37 && statusWord t == 2) = true := by
  decide +kernel
/-- X8: ERR_UNKEYED before ERR_ALIGN. -/
theorem test_encrypt_unkeyed : statusAfter sT 9 0x02 0x046 = true := by decide +kernel
/-- B8: DECRYPT of data never encrypted, under K0. -/
theorem test_decrypt_zero : decryptBlock kZero ⟨0, 0, 0, 0, 0, 0, 0, 0⟩ =
    ⟨0x3932FFC0, 0x97FC2220, 0x5F0C901B, 0x72B9F1D3, 0xCDC79AEE, 0x947B0AE2, 0x3D86F80C, 0x1C20B7F4⟩ := by
  decide +kernel
/-- X10: 1032 words are a multiple of 8 and past BUF_BYTES / 4. -/
theorem test_decrypt_length : statusAfter (keyed0 0) 1032 0x03 0x136 = true := by decide +kernel
/-- X16. -/
theorem test_keystream_length : statusAfter (keyed1 0) 513 0x14 0x236 = true := by decide +kernel
/-- P3's STATUS. -/
theorem test_keystream_runs : statusAfter (keyed1 0) 32 0x14 0x202 = true := by decide +kernel
/-- X19. -/
theorem test_zeroize0_unkeys : statusAfter (keyed0 0) 0xFFFFFFFF 0x05 0x002 = true := by decide +kernel
/-- R230's example: ZEROIZE.1 leaves context 0's key. -/
theorem test_zeroize1_other_context :
    statusAfter { keyed1 0 with bank0 := ⟨kZero, kZero, true⟩ } 0 0x15 0x102 = true := by decide +kernel
/-- X6. -/
theorem test_illegal_word : statusAfter sT 8 0x21 0x016 = true := by decide +kernel

/-! ## Host accesses (vectors X22 to X36) -/

/-- X22: after X9, 0x6 to STATUS. -/
theorem test_status_clear :
    nextHas (step (doing { keyed0 0 with done := true, err := true, errcode := 2 } fun b => .write 32 (b + 8) 6))
      (fun t => statusWord t == 0x100) = true := by decide +kernel
/-- X25, X26, X27. -/
theorem test_register_bus_errors :
    (isFault (step (doing sT fun b => .read 8 (b + 0x008))) .registerAccessShape &&
      isFault (step (doing sT fun b => .read 32 (b + 0x006))) .registerAccessShape &&
      isFault (step (doing sT fun b => .read 32 (b + 0x010))) .unmappedOffset) = true := by decide +kernel
/-- X28, X29, X30, and an address below the window. -/
theorem test_buf_bus_errors :
    (isFault (step (doing sT fun b => .write 32 (b + 0x1001) 0)) .bufAccessShape &&
      isFault (step (doing sT fun b => .read 32 (b + 0x1000 + 4096))) .unmappedOffset &&
      isFault (step (doing sT fun b => .read 16 (b + 0x1000))) .bufAccessShape &&
      isFault (step (doing sT fun b => .read 32 (b - 4))) .outsideWindow) = true := by decide +kernel
/-- R79, R310, R320: a bus error while BUSY = 1 sets no STATUS bit, and the engine's next turn completes the command (X6's
STATUS); the stopped host's turn with the engine idle is the fault. -/
theorem test_bus_error_while_busy :
    (nextHas (step (doing (busyWith 0x21 8) fun b => .read 32 (b + 0x010))) (fun t => statusWord t == 1 &&
        nextHas (step { t with turns := [.engine] }) (fun u => statusWord u == 0x016)) &&
      isFault (step (stopped sT)) .unmappedOffset) = true := by decide +kernel
/-- X31: the last byte of BUF. -/
theorem test_last_byte :
    nextHas (step (doing { sT with buf := [(4095, 7)] } fun b => .read 8 (b + 0x1FFF)))
      (fun t => t.received == [.byte 7]) = true := by decide +kernel
/-- R75, P2: the key word 0x78563412 is the bytes 12 34 56 78. -/
theorem test_little_endian :
    nextHas (step (doing sT fun b => .write 32 (b + 0x1000) 0x78563412))
      (fun t => t.buf == [(0, 0x12), (1, 0x34), (2, 0x56), (3, 0x78)]) = true := by decide +kernel
/-- X33: a CMD write while BUSY = 1. -/
theorem test_busy_write :
    nextHas (step (doing (busyWith 0x01 8) fun b => .write 32 b 2))
      (fun t => statusWord t == 0x401 && t.cmd == 1) = true := by decide +kernel
/-- X36: LEN is stored, the latched length stays. -/
theorem test_busy_len :
    nextHas (step (doing (busyWith 0x01 8) fun b => .write 32 (b + 4) 16))
      (fun t => t.len == 16 && t.curLen == 8) = true := by decide +kernel

/-! ## Functions with the stand-ins of 95_test_vectors.md, 2.0 -/

def magicS1 (n : Nat) : Word :=
  if n % 4 = 0 then 0x11111111 else if n % 4 = 1 then 0x22222222 else if n % 4 = 2 then 0x33333333 else 0x44444444

/-- The stand-in set S1. -/
def paramsS1 : OpenParams where
  sboxA x := x ^^^ 0x5A
  sboxB x := x + 1
  magic i := magicS1 i.val
  nlfsrF b31 b28 b23 b17 b13 b4 b1 := (b31 && b28) ^^ ((b23 && b17 && b13) ^^ (b4 ^^ b1))
  mixAS c ri K :=
    let K := kWrite K c (kRead K c ^^^ magicS1 c.val)
    let K := kWrite K (idx c 1) (kRead K (idx c 1) + kRead K c)
    let K := kWrite K c (kRead K c - magicS1 (ri >>> 7).toNat)
    (kWrite K (idx c 1) (kRead K (idx c 1) + kRead K c), ri)
  ramFold x m _ pos _ := (x - m) + rotl m pos.val
  cmTail c ri K :=
    let ri := ri ^^^ join64 (diffuseL (kRead K c ^^^ magicS1 c.val)) (diffuseL2 (kRead K c + magicS1 (c.val + 1)))
    let K := kWrite K (idx c 1) (kRead K (idx c 1) + lo32 ri)
    (kWrite K (idx c 2) (kRead K (idx c 2) ^^^ hi32 ri), ri)

/-- The identity for MIX_AS and CM_TAIL. -/
def paramsId : OpenParams := { paramsS1 with mixAS := fun _ ri K => (K, ri), cmTail := fun _ ri K => (K, ri) }

/-- `K[i] = i * 0x01010101`. -/
def kRamp : Kdsb := kBuild fun i => 0x01010101 * BitVec.ofNat 32 i.val

/-- N13, N14. -/
theorem test_nlfsr : nlfsr paramsS1 1 = 0x41000001 ∧ nlfsr paramsS1 0x12345678 = 0xB0D2AB85 := by decide +kernel
/-- M16: RoundOp at c = 127, the indexes wrapping. -/
theorem test_roundOp_wraps :
    let m := roundOp paramsS1 127 0x123456789ABCDEF0 kRamp
    m.2 = 0x9B6B3A92EA9CBBC1 ∧ kRead m.1 127 = 0x730399EC ∧ kRead m.1 0 = 0x3EF11015 ∧ kRead m.1 1 = 0x9A6A3B93 := by
  decide +kernel
/-- W4: the padding is substituted too. -/
theorem test_keyWords : keyWords paramsS1 [1, 2, 3, 4, 5] = [0x06020501, 0x02000205] := by decide +kernel
/-- A1, A3, A6. -/
theorem test_rotations : rotr 0x80000001 1 = 0xC0000000 ∧ rotl 0x80000001 32 = 0x80000001 ∧
    rotl 0x12345678 0xFFFFFFFF = 0x091A2B3C := by decide +kernel
/-- N5, N9. -/
theorem test_primitives : diffuseL 0x12345678 = 0xAA4E9357 ∧ diffuseL2 0x12345678 = 0xA4F24E15 ∧
    selectGG 96 0xFFFFFFFF 0 96 128 = 0x60 := by decide +kernel
/-- B4: round 1 with K1. -/
theorem test_encRound : encRound (kBuild fun i => 0x9E3779B9 * BitVec.ofNat 32 (i.val + 1)) 1 ⟨1, 2, 3, 4, 5, 6, 7, 8⟩ =
    ⟨0x8FF50381, 0x08D31665, 0x255992DF, 0x61C88653, 0xAD734781, 0x8599B4AB, 0x53845411, 0x2E2AC140⟩ := by
  decide +kernel

/-! ## Witnesses: concrete states and operands that meet the hypotheses of each statement -/

/-- BUF with one block of data at its start and one byte at its end. -/
def bufT : Memory := [(0, 1), (4, 2), (4095, 7)]

/-- An idle engine with data in BUF. -/
def dataT : State := { sT with buf := bufT }

theorem witness_LegalWordsAreExactlyTheSeven : decode 0x00000014 = .ok .keystream := rfl

theorem witness_ErrOpcodeExactlyForIllegalWords :
    ((busyWith 0x21 8).engineMoves [] ∧ (busyWith 0x21 8).busy = true ∧ (busyWith 0x21 8).latched.legal = false) ∧
    ((busyWith 0x15 8).engineMoves [] ∧ (busyWith 0x15 8).busy = true ∧ (busyWith 0x15 8).latched.legal = true) :=
  ⟨⟨rfl, rfl, rfl⟩, rfl, rfl, rfl⟩

theorem witness_StepRunsTheLatchedCommand :
    ((busyWith 0x02 8).busy = true ∧ decodeFields (busyWith 0x02 8).latched = .ok .encrypt ∧
      (busyWith 0x02 8).engineMoves []) ∧
    ({ busyWith 0x02 8 with turns := [] }.busy = true ∧
      decodeFields { busyWith 0x02 8 with turns := [] }.latched = .ok .encrypt ∧
      ({ busyWith 0x02 8 with turns := [] } : State).turns = []) := ⟨⟨rfl, rfl, rfl⟩, rfl, rfl, rfl⟩

theorem witness_AcceptanceOfACommandWord :
    (doing sT fun b => .write 32 (b + 0x000) 5).hostDoes (.write 32 (cfgT.engineBase + 0x000) 5) [] [] ∧
    (doing sT fun b => .write 32 (b + 0x000) 5).busy = false := ⟨⟨rfl, rfl, rfl⟩, rfl⟩

/-- The host writes CMD, then LEN, before the engine moves. -/
def twoWrites : State := { sT with
  turns := [.host, .host, .engine]
  hostProg := [.access (.write 32 (0x40000000 + 0x000) 5), .access (.write 32 (0x40000000 + 0x004) 16)] }

theorem witness_WrittenCommandRunsWithItsLen : twoWrites.turns = .host :: .host :: .engine :: [] ∧
    twoWrites.hostProg = .access (.write 32 (twoWrites.cfg.engineBase + 0x000) (encode .zeroize0)) ::
      .access (.write 32 (twoWrites.cfg.engineBase + 0x004) 16) :: [] ∧ twoWrites.hostStopped = none ∧
    twoWrites.busy = false := ⟨rfl, rfl, rfl, rfl⟩

theorem witness_ResetClearsTheEngine : ({ busyWith 0x01 8 with turns := [.reset] } : State).turns = .reset :: [] := rfl

theorem witness_ErrorCompletionIsPrecise :
    exec .keysched0 sT = .next (completeError .length sT) ∧ (completeError .length sT).err = true := ⟨rfl, rfl⟩

/-- A busy engine whose next turn completes the command, one whose next turn is a reset, and one whose host runs into a
bus error. -/
theorem witness_RunningCommandCompletes :
    (busyWith 0x11 8).busy = true ∧ ({ busyWith 0x11 8 with turns := [.reset] } : State).busy = true ∧
    (doing (busyWith 0x11 8) fun b => .read 32 (b + 0x010)).busy = true := ⟨rfl, rfl, rfl⟩

theorem witness_ContextsDoNotMix :
    (Instr.encrypt ∈ [Instr.keysched0, .encrypt, .decrypt, .zeroize0] ∧ ∃ t, exec .encrypt (keyed0 8) = .next t) ∧
    (Instr.keystream ∈ [Instr.keysched1, .keystream, .zeroize1] ∧ ∃ t, exec .keystream (keyed1 8) = .next t) :=
  ⟨⟨by decide, _, rfl⟩, by decide, _, rfl⟩

theorem witness_KeyedFlagFollowsCommands : ∃ t, exec .keysched1 (keyed0 8) = .next t := ⟨_, rfl⟩

theorem witness_ResetMeetsTheInvariant : cfgT.wf = true := rfl

/-- The invariant holds of a busy engine too, and a step leads on from it. -/
theorem witness_EveryStepKeepsTheInvariant : (busyWith 0x02 8).Inv ∧ ∃ t, step (busyWith 0x02 8) = .next t := by
  refine ⟨⟨rfl, ⟨rfl, rfl⟩, ⟨?_, ?_, ?_⟩, ?_, ⟨?_, rfl, rfl⟩, ?_, ?_⟩, _, rfl⟩
  · decide
  · decide
  · decide
  · intro _; rfl
  · intro h; cases h
  · intro _; exact ⟨rfl, rfl⟩
  · intro _ _; exact ⟨rfl, rfl⟩

theorem witness_InterfaceParametersAreFixed : ∃ t, step (doing sT fun b => .write 32 (b + 0x00C) 1) = .next t := ⟨_, rfl⟩

theorem witness_HostNeverWritesKeyMaterial :
    (doing (busyWith 0x01 8) fun b => .write 32 (b + 0x1000) 7).hostMoves ∧
    (doing (busyWith 0x01 8) fun b => .write 32 (b + 0x1000) 7).busy = true ∧
    ∃ t, step (doing (busyWith 0x01 8) fun b => .write 32 (b + 0x1000) 7) = .next t := ⟨.inl ⟨[], rfl⟩, rfl, _, rfl⟩

/-- A read of STATUS to come, with the given KDSB_0, STATE_0 and RI. -/
def readsStatus (K : Kdsb) (ri : RandomIndex) : State :=
  { sT with
    turns := [.host], hostProg := [.access (.read 32 (0x40000000 + 0x008))], bank0 := ⟨K, K, false⟩, ri := ri }

theorem readsStatus_sameVisible (K L : Kdsb) (r q : RandomIndex) :
    (readsStatus K r).sameVisible (readsStatus L q) :=
  ⟨rfl, rfl, rfl, rfl, rfl, rfl, rfl, rfl, rfl, rfl, rfl, rfl, rfl, rfl, rfl, rfl, rfl, rfl, rfl⟩

/-- A host's turn in two states with different keys, and a reset of two states with different RI. -/
theorem witness_HostCannotSeeKeyMaterial :
    (readsStatus kZero 0).sameVisible (readsStatus kRamp 1) ∧ (readsStatus kZero 0).hostMoves ∧
    ({ sT with turns := [.reset] } : State).sameVisible { sT with turns := [.reset], ri := 1 } ∧
    ∃ ts, ({ sT with turns := [.reset] } : State).turns = .reset :: ts :=
  ⟨readsStatus_sameVisible _ _ _ _, .inl ⟨[], rfl⟩,
    ⟨rfl, rfl, rfl, rfl, rfl, rfl, rfl, rfl, rfl, rfl, rfl, rfl, rfl, rfl, rfl, rfl, rfl, rfl, rfl⟩, [], rfl⟩

/-- Supported and unsupported accesses at the edges of the window, idle and busy, and a stopped host, busy and idle. -/
theorem witness_BusErrorsExactlyForUnsupportedAccesses :
    (doing sT fun b => .read 32 (b + 0x1FFC)).hostDoes (.read 32 (cfgT.engineBase + 0x1FFC)) [] [] ∧
    supportedAccess 4096 32 0x1FFC ∧ supportedAccess 4096 8 0x1FFF ∧ supportedAccess 4096 32 0x00C ∧
    (doing sT fun b => .write 32 (b + 0x2000) 1).hostDoes (.write 32 (cfgT.engineBase + 0x2000) 1) [] [] ∧
    ¬ supportedAccess 4096 32 0x2000 ∧ ¬ supportedAccess 4096 8 0x2000 ∧ ¬ supportedAccess 4096 32 0x010 ∧
    ¬ supportedAccess 4096 32 0x0FFC ∧ ¬ supportedAccess 4096 32 0x1FFE ∧ ¬ supportedAccess 4096 8 0x00F ∧
    (doing sT fun b => .write 32 (b + 0x2000) 1).busy = false ∧
    (doing (busyWith 0x01 8) fun b => .read 8 (b + 0x2000)).hostDoes (.read 8 (cfgT.engineBase + 0x2000)) [] [] ∧
    (busyWith 0x01 8).busy = true ∧
    (stopped (busyWith 0x01 8)).turns = .host :: [] ∧ (stopped (busyWith 0x01 8)).hostStopped = some .unmappedOffset ∧
    (stopped (busyWith 0x01 8)).busy = true ∧ (stopped sT).busy = false := by
  refine ⟨⟨rfl, rfl, rfl⟩, ?_, ?_, ?_, ⟨rfl, rfl, rfl⟩, ?_, ?_, ?_, ?_, ?_, ?_, rfl, ⟨rfl, rfl, rfl⟩, rfl, rfl, rfl, rfl, rfl⟩
    <;> (unfold supportedAccess; decide)

theorem witness_StatusReadsAsTheTable :
    (doing (busyWith 0x01 8) fun b => .read 32 (b + 0x008)).hostDoes (.read 32 (cfgT.engineBase + 0x008)) [] [] :=
  ⟨rfl, rfl, rfl⟩

theorem witness_StatusWriteClearsOnes :
    (doing (busyWith 0x01 8) fun b => .write 32 (b + 0x008) 0x406).hostDoes
      (.write 32 (cfgT.engineBase + 0x008) 0x406) [] [] := ⟨rfl, rfl, rfl⟩

theorem witness_RegisterAccessesAtAnyTime :
    (doing sT fun b => .read 32 (b + 0x000)).hostDoes (.read 32 (cfgT.engineBase + 0x000)) [] [] ∧
    (doing sT fun b => .read 32 (b + 0x004)).hostDoes (.read 32 (cfgT.engineBase + 0x004)) [] [] ∧
    (doing sT fun b => .read 32 (b + 0x00C)).hostDoes (.read 32 (cfgT.engineBase + 0x00C)) [] [] ∧
    (doing sT fun b => .write 32 (b + 0x004) 9).hostDoes (.write 32 (cfgT.engineBase + 0x004) 9) [] [] ∧
    (doing sT fun b => .write 32 (b + 0x00C) 9).hostDoes (.write 32 (cfgT.engineBase + 0x00C) 9) [] [] :=
  ⟨⟨rfl, rfl, rfl⟩, ⟨rfl, rfl, rfl⟩, ⟨rfl, rfl, rfl⟩, ⟨rfl, rfl, rfl⟩, rfl, rfl, rfl⟩

/-- The last byte of BUF, and the byte past it (a bus error). -/
theorem witness_ReadsHaveNoSideEffect :
    ((doing (busyWith 0x01 8) fun b => .read 8 (b + 0x1FFF)).hostDoes (.read 8 (cfgT.engineBase + 0x1FFF)) [] [] ∧
      ∃ t, step (doing (busyWith 0x01 8) fun b => .read 8 (b + 0x1FFF)) = .next t) ∧
    (doing (busyWith 0x01 8) fun b => .read 8 (b + 0x2000)).hostDoes (.read 8 (cfgT.engineBase + 0x2000)) [] [] ∧
    ∃ t, step (doing (busyWith 0x01 8) fun b => .read 8 (b + 0x2000)) = .next t ∧ t.hostStopped = some .unmappedOffset :=
  ⟨⟨⟨rfl, rfl, rfl⟩, _, rfl⟩, ⟨rfl, rfl, rfl⟩, _, rfl, rfl⟩

/-- The last word and the last byte of BUF. -/
theorem witness_BufWritesAreLittleEndian :
    dataT.buf.wf = true ∧ dataT.busy = false ∧
    (doing dataT fun b => .write 32 (b + 0x1000 + 4092) 9).hostDoes
      (.write 32 (cfgT.engineBase + 0x1000 + 4092) 9) [] [] ∧ 4092 % 4 = 0 ∧ 4092 + 4 ≤ cfgT.bufBytes ∧
    (doing dataT fun b => .write 8 (b + 0x1000 + 4095) 9).hostDoes
      (.write 8 (cfgT.engineBase + 0x1000 + 4095) 9) [] [] ∧ 4095 < cfgT.bufBytes :=
  ⟨rfl, rfl, ⟨rfl, rfl, rfl⟩, by decide, by decide, ⟨rfl, rfl, rfl⟩, by decide⟩

theorem witness_BufReadsAreLittleEndian :
    dataT.busy = false ∧
    (doing dataT fun b => .read 32 (b + 0x1000 + 4092)).hostDoes (.read 32 (cfgT.engineBase + 0x1000 + 4092)) [] [] ∧
    4092 % 4 = 0 ∧ 4092 + 4 ≤ cfgT.bufBytes ∧
    (doing dataT fun b => .read 8 (b + 0x1000 + 4095)).hostDoes (.read 8 (cfgT.engineBase + 0x1000 + 4095)) [] [] ∧
    4095 < cfgT.bufBytes := ⟨rfl, ⟨rfl, rfl, rfl⟩, by decide, by decide, ⟨rfl, rfl, rfl⟩, by decide⟩

/-- CMD, the first byte and the last word of BUF. -/
theorem witness_BusyWritesAreDropped :
    (busyWith 0x01 8).busy = true ∧
    (doing (busyWith 0x01 8) fun b => .write 32 (b + 0x000) 2).hostDoes (.write 32 (cfgT.engineBase + 0x000) 2) [] [] ∧
    supportedAccess 4096 32 0x000 ∧
    (doing (busyWith 0x01 8) fun b => .write 8 (b + 0x1000) 2).hostDoes (.write 8 (cfgT.engineBase + 0x1000) 2) [] [] ∧
    supportedAccess 4096 8 0x1000 ∧ supportedAccess 4096 32 0x1FFC := by
  refine ⟨rfl, ⟨rfl, rfl, rfl⟩, ?_, ⟨rfl, rfl, rfl⟩, ?_, ?_⟩ <;> (unfold supportedAccess; decide)

/-- Both ways out of BUSYERR. -/
theorem witness_BusyerrIsSticky :
    (∃ t, step (doing { sT with busyerr := true } fun b => .write 32 (b + 0x008) 0x400) = .next t ∧ t.busyerr = false) ∧
    (∃ t, step { sT with busyerr := true, turns := [.reset] } = .next t ∧ t.busyerr = false) :=
  ⟨⟨_, rfl, rfl⟩, _, rfl, rfl⟩

theorem witness_BusyBufReadsAreDraws :
    (busyWith 0x01 8).busy = true ∧
    (doing (busyWith 0x01 8) fun b => .read 32 (b + 0x1000 + 4092)).hostDoes
      (.read 32 (cfgT.engineBase + 0x1000 + 4092)) [] [] ∧ 4092 % 4 = 0 ∧ 4092 + 4 ≤ cfgT.bufBytes ∧
    (doing (busyWith 0x01 8) fun b => .read 8 (b + 0x1000 + 4095)).hostDoes
      (.read 8 (cfgT.engineBase + 0x1000 + 4095)) [] [] ∧ 4095 < cfgT.bufBytes :=
  ⟨rfl, ⟨rfl, rfl, rfl⟩, by decide, by decide, ⟨rfl, rfl, rfl⟩, by decide⟩

theorem witness_IrqIsEnabledDone : ∃ t, exec .zeroize1 { sT with ie := true } = .next t := ⟨_, rfl⟩

/-- The shortest and the longest key. -/
theorem witness_KeyschedKeysItsContext :
    ({ sT with curLen := 1 } : State).keyReady ∧ ({ sT with curLen := 4096 } : State).keyReady := by
  constructor <;> (unfold State.keyReady; decide)

theorem witness_KeyschedRefusesBadLength :
    Instr.keysched0 ∈ [Instr.keysched0, .keysched1] ∧ Instr.keysched1 ∈ [Instr.keysched0, .keysched1] ∧
    ¬ ({ sT with curLen := 0 } : State).keyReady ∧ ¬ ({ sT with curLen := 4097 } : State).keyReady := by
  refine ⟨by decide, by decide, ?_, ?_⟩ <;> (unfold State.keyReady; decide)

/-- Two states with one key of 4 bytes and different data after it, one of them keyed already. -/
theorem witness_KeyschedForgetsHistory :
    ({ dataT with curLen := 4 } : State).keyReady ∧
    sameKey bufT [(0, 1)] 4 ∧
    (∃ t, exec .keysched0 { dataT with curLen := 4 } = .next t) ∧
    (∃ t, exec .keysched0 { keyed0 4 with buf := [(0, 1)] } = .next t) ∧
    (∃ t, exec .keysched1 { dataT with curLen := 4 } = .next t) ∧
    (∃ t, exec .keysched1 { keyed0 4 with buf := [(0, 1)] } = .next t) := by
  refine ⟨by unfold State.keyReady; decide, by unfold sameKey; decide, ⟨_, rfl⟩, ⟨_, rfl⟩, ⟨_, rfl⟩, _, rfl⟩

/-- The second group of a key of 5 bytes. -/
theorem witness_KeyWordsArePackedGroups : 1 < (([1, 2, 3, 4, 5] : List Byte).length + 3) / 4 := by decide

/-- 129 key words: chunk 1 has one word (KS6). -/
theorem witness_ChunksCoverTheKeyWords :
    1 < chunkCount (List.replicate 129 (0 : Word)).length ∧ 0 < (chunkWords (List.replicate 129 (0 : Word)) 1).length := by
  decide +kernel

theorem witness_ShortKeysLeaveStateZero :
    (1 ≤ (List.replicate 1 (0 : Byte)).length ∧ (List.replicate 1 (0 : Byte)).length ≤ 508) ∧
    1 ≤ (List.replicate 508 (0 : Byte)).length ∧ (List.replicate 508 (0 : Byte)).length ≤ 508 := by
  simp only [List.length_replicate]; decide

theorem witness_OneChunkKeysSnapshotOnce :
    (509 ≤ (List.replicate 509 (0 : Byte)).length ∧ (List.replicate 509 (0 : Byte)).length ≤ 512) ∧
    509 ≤ (List.replicate 512 (0 : Byte)).length ∧ (List.replicate 512 (0 : Byte)).length ≤ 512 := by
  simp only [List.length_replicate]; decide

/-- Chunk 0 of 1, 127, 128 and 129 words; the one word of chunk 1 of 129 words and a position past it, under both settings
of each parameter. -/
theorem witness_LaterChunksFeedBack :
    (1 ≤ (List.replicate 1 (0 : Word)).length ∧ (List.replicate 127 (0 : Word)).length < 128 ∧
      ¬ (List.replicate 128 (0 : Word)).length < 128 ∧ 1 ≤ (List.replicate 129 (0 : Word)).length) ∧
    1 < chunkCount (List.replicate 129 (0 : Word)).length ∧
    (0 : Fin 128).val < (chunkWords (List.replicate 129 (0 : Word)) 1).length ∧
    ¬ (1 : Fin 128).val < (chunkWords (List.replicate 129 (0 : Word)) 1).length ∧
    cfgT.snapshotKeyword = .original ∧ ({ cfgT with snapshotKeyword := .premixed } : HwConfig).snapshotKeyword ≠ .original ∧
    cfgT.snapshotTail = .copyKdsb ∧ ({ cfgT with snapshotTail := .keepState } : HwConfig).snapshotTail ≠ .copyKdsb := by
  decide +kernel

/-- The whole of State, and no byte of it; the last byte of the data and the first past it. -/
theorem witness_KeystreamAdvancesAndFillsBuf :
    dataT.buf.wf = true ∧ ({ keyed1 512 with buf := bufT } : State).streamReady ∧ (keyed1 0).streamReady ∧
    (511 : Nat) < (keyed1 512).curLen.toNat ∧ (keyed1 512).curLen.toNat ≤ 512 := by
  refine ⟨rfl, ?_, ?_, by decide, by decide⟩ <;> (unfold State.streamReady; decide)

theorem witness_GenerateFoldsAndPasses : (127 : Fin 128) ≠ 0 := by decide

theorem witness_KeystreamErrors :
    (sT.cfg.unkeyedPolicy = .failClosed ∧ sT.bank1.keyed = false) ∧
    ((keyed1 513).bank1.keyed = true ∧ 512 < (keyed1 513).curLen.toNat) ∧
    (({ sT with cfg := { cfgT with unkeyedPolicy := .compatZero }, curLen := 513 } : State).cfg.unkeyedPolicy =
      .compatZero) := by decide

/-- Two different states with the golden key's first bytes in BUF, and a keystream of 512 bytes. -/
theorem witness_RekeyedKeystreamRepeats :
    bufT.wf = true ∧ Memory.wf [(0, 1)] = true ∧ ({ dataT with curLen := 4 } : State).keyReady ∧
    ({ dataT with curLen := 4 } : State).cfg = ({ keyed1 4 with buf := [(0, 1)] } : State).cfg ∧
    sameKey bufT [(0, 1)] 4 ∧ (512 : Word).toNat ≤ 512 ∧ (512 : Word).toNat ≤ cfgT.bufBytes :=
  ⟨rfl, rfl, by unfold State.keyReady; decide, rfl, by unfold sameKey; decide, by decide, by decide⟩

/-- No block, and all of BUF, for ENCRYPT, DECRYPT and their round trip; the last block and the first byte past the data. -/
theorem witness_EncryptReplacesEveryBlock :
    bufT.wf = true ∧ ({ keyed0 0 with buf := bufT } : State).blockReady ∧
    ({ keyed0 1024 with buf := bufT } : State).blockReady ∧ 127 < (keyed0 1024).curLen.toNat / 8 ∧
    4 * (keyed0 1024).curLen.toNat ≤ 4096 := by
  refine ⟨rfl, ?_, ?_, by decide, by decide⟩ <;> (unfold State.blockReady; decide)

theorem witness_DecryptReplacesEveryBlock :
    ({ sT with cfg := { cfgT with unkeyedPolicy := .compatZero }, curLen := 8 } : State).blockReady := by
  unfold State.blockReady; decide

theorem witness_DecryptInvertsEncrypt : bufT.wf = true ∧ ({ keyed0 8 with buf := bufT } : State).blockReady := by
  refine ⟨rfl, ?_⟩; unfold State.blockReady; decide

/-- X8, X9, X10. -/
theorem witness_BlockErrorsInOrder :
    (Instr.encrypt ∈ [Instr.encrypt, .decrypt] ∧ Instr.decrypt ∈ [Instr.encrypt, .decrypt]) ∧
    (sT.cfg.unkeyedPolicy = .failClosed ∧ sT.bank0.keyed = false) ∧
    ((keyed0 9).bank0.keyed = true ∧ (keyed0 9).curLen.toNat % 8 ≠ 0) ∧
    ((keyed0 1032).curLen.toNat % 8 = 0 ∧ (keyed0 1032).cfg.bufBytes / 4 < (keyed0 1032).curLen.toNat) := by decide

/-- Blocks that agree in one half and differ in the other. -/
theorem witness_BlockHalvesNeverMix :
    (let x : Block := ⟨1, 2, 3, 4, 5, 6, 7, 8⟩; let y : Block := ⟨1, 2, 9, 9, 9, 9, 7, 8⟩
      x ≠ y ∧ x.a = y.a ∧ x.b = y.b ∧ x.g = y.g ∧ x.h = y.h) ∧
    (let x : Block := ⟨1, 2, 3, 4, 5, 6, 7, 8⟩; let y : Block := ⟨9, 9, 3, 4, 5, 6, 9, 9⟩
      x ≠ y ∧ x.c = y.c ∧ x.d = y.d ∧ x.e = y.e ∧ x.f = y.f) := by decide

/-- The first and the last round. -/
theorem witness_EncryptionRoundFormula : 1 ≤ (1 : Fin 63).val ∧ 1 ≤ (62 : Fin 63).val := by decide

theorem witness_DecryptionRoundFormula : 1 ≤ (1 : Fin 63).val ∧ 1 ≤ (62 : Fin 63).val := by decide

/-- Bit 31 on both sides of the boundary (R146). -/
theorem witness_SelectorsBitByBit : 31 < 32 ∧ 95 < 96 ∧ 96 ≤ 96 := by decide

/-- The first and the last shifted bit, and two equal results. -/
theorem witness_NlfsrIsAPermutation : 0 < 31 ∧ 30 < 31 ∧ nlfsr paramsS1 0 = nlfsr paramsS1 0 :=
  ⟨by decide, by decide, rfl⟩

/-- M4, M5: pos = c, and a word that is not K[c]. -/
theorem witness_RandomAccessMixWritesOneWord :
    (⟨(7 : RandomIndex).toNat % 128, Nat.mod_lt _ (by decide)⟩ : Fin 128) = 7 ∧ (3 : Fin 128) ≠ 7 := by decide

theorem witness_ComplexMixStepsOneToFour : (127 : Fin 128) ≠ 0 := by decide

/-- Identity stand-ins have all three footprints; at counter 127 the words K[127], K[0], K[1] may change, K[2] may not. -/
theorem witness_RoundOpFootprint :
    OpenParamsMixFootprint paramsId ∧ OpenParamsTailFootprint paramsId ∧ OpenParamsMixReads paramsId ∧
    (2 : Fin 128) ≠ 127 ∧ (2 : Fin 128).val ≠ ((127 : Fin 128).val + 1) % 128 ∧
    (2 : Fin 128).val ≠ ((127 : Fin 128).val + 2) % 128 :=
  ⟨fun _ _ _ _ _ _ => rfl, fun _ _ _ _ _ _ => rfl, fun _ _ _ _ h h' => ⟨rfl, h, h'⟩, by decide, by decide, by decide⟩

end Sys2Proof.Tests
end

section
/-! PROOFS. The statements of 00_scope.md: no step changes the interface parameters (R7). -/

namespace Sys2Proof.Machine

/-! ## What the host does to the interface parameters -/

@[simp] theorem readTarget_cfg (t : Target) (s : State) : (readTarget t s).cfg = s.cfg := by
  obtain ⟨_, _, h, _⟩ := readTarget_eq t s
  rw [h]

@[simp] theorem writeTarget_cfg (t : Target) (v : Word) (s : State) : (writeTarget t v s).cfg = s.cfg := by
  rcases writeTarget_cases t v s with ⟨_, _, h⟩ | ⟨_, _, h⟩ | ⟨_, h⟩ | ⟨_, h⟩ | ⟨_, h⟩ | ⟨_, _, _, h⟩ | ⟨_, _, _, h⟩ <;>
    simp [h]

theorem hostTurn_cfg {s t : State} (h : hostTurn s = .next t) : t.cfg = s.cfg := by
  rcases hostTurn_cases h with rfl | ⟨_, _, _, rfl⟩ | ⟨_, _, _, rfl⟩ | ⟨_, _, _, _, _, _, rfl⟩ |
    ⟨_, _, _, _, _, _, _, rfl⟩
  · rfl
  · rfl
  · rfl
  · rw [readTarget_cfg]
  · rw [writeTarget_cfg]

/-! ## Every step -/

theorem step_cfg {s t : State} (h : step s = .next t) : t.cfg = s.cfg := by
  obtain ⟨ts, -, hhost | ⟨-, hengine⟩ | ⟨-, rfl⟩ | ⟨-, rfl⟩⟩ := step_cases h
  · rw [hostTurn_cfg hhost]
  · exact (completionStep_outside hengine).2
  · rfl
  · exact resetEngine_cfg _

/-- Settles O17, one case for each thing a step can do: a host turn, a completion step, an idle engine's turn, a reset. -/
theorem interfaceParametersAreFixed : Obligations.InterfaceParametersAreFixed := fun _ _ => step_cfg

end Sys2Proof.Machine
end

section
/-! PROOFS. The statements of 10_state.md: the invariant (R34, R35, R41, R44, R45), what a command does to the two contexts
(R31, R34), what the host never writes (R32, R33, R35), and the accesses to the registers (R40 to R43). -/

namespace Sys2Proof.Machine

/-! ## A command as its check and its effect (R312, R314) -/

/-- The check a command makes before anything changes. -/
def commandCheck (i : Instr) (s : State) : Option ErrCode :=
  match i with
  | .keysched0 | .keysched1 => keyCheck s.cfg s.curLen.toNat
  | .encrypt | .decrypt => blockCheck s.cfg s.bank0 s.curLen.toNat
  | .keystream => streamCheck s.cfg s.bank1 s.curLen.toNat
  | .zeroize0 | .zeroize1 => none

/-- The effect of a command that passes its check. -/
def commandBody (i : Instr) : State → State :=
  match i with
  | .keysched0 => keyschedBody .c0
  | .keysched1 => keyschedBody .c1
  | .encrypt => blockBody encryptBlock
  | .decrypt => blockBody decryptBlock
  | .keystream => keystreamBody
  | .zeroize0 => zeroizeBody .c0
  | .zeroize1 => zeroizeBody .c1

/-- Every command is its check and then its effect: what holds of both holds of the command. -/
theorem exec_eq_runCommand (i : Instr) (s : State) : exec i s = runCommand (commandCheck i s) (commandBody i) s := by
  cases i <;> rfl

/-- What a command can do when it answers a next state (it always does). -/
theorem exec_cases {i : Instr} {s t : State} (h : exec i s = .next t) :
    (∃ e, commandCheck i s = some e ∧ t = completeError e s) ∨
    (commandCheck i s = none ∧ t = completeOk (commandBody i s)) :=
  runCommand_cases (exec_eq_runCommand i s ▸ h)

/-- The effect of KEYSCHED: a keyed context, and the stores it filled scrubbed (R225). -/
theorem keyschedBody_eq (c : CtxId) (s : State) :
    ∃ b : Bank, b.keyed = true ∧ keyschedBody c s = s.scrubKeyStores.setBank c b := by
  cases c <;> exact ⟨⟨_, _, true⟩, rfl, rfl⟩

/-! ## The context a command does not work on (R31) -/

/-- A completion commutes with the replacement of a context. -/
theorem completeOk_setBank (s : State) (c : CtxId) (b : Bank) :
    completeOk (s.setBank c b) = (completeOk s).setBank c b := by cases c <;> rfl

theorem completeError_setBank (e : ErrCode) (s : State) (c : CtxId) (b : Bank) :
    completeError e (s.setBank c b) = (completeError e s).setBank c b := by cases c <;> rfl

@[simp] theorem completeOk_bank (s : State) (c : CtxId) : (completeOk s).bank c = s.bank c := by cases c <;> rfl

@[simp] theorem completeError_bank (e : ErrCode) (s : State) (c : CtxId) : (completeError e s).bank c = s.bank c := by
  cases c <;> rfl

/-- The context a command does not work on. -/
def otherCtx : Instr → CtxId
  | .keysched0 | .encrypt | .decrypt | .zeroize0 => .c1
  | .keysched1 | .keystream | .zeroize1 => .c0

/-- The check of a command does not look at the other context. -/
theorem commandCheck_setBank_otherCtx (i : Instr) (s : State) (b : Bank) :
    commandCheck i (s.setBank (otherCtx i) b) = commandCheck i s := by cases i <;> rfl

/-- The effect of a command does not look at the other context. -/
theorem commandBody_setBank_otherCtx (i : Instr) (s : State) (b : Bank) :
    commandBody i (s.setBank (otherCtx i) b) = (commandBody i s).setBank (otherCtx i) b := by cases i <;> rfl

/-- The effect of a command leaves the other context alone. -/
theorem commandBody_bank_otherCtx (i : Instr) (s : State) :
    (commandBody i s).bank (otherCtx i) = s.bank (otherCtx i) := by cases i <;> rfl

/-- A command leaves the other context alone, and does the same whatever is in it. -/
theorem exec_otherCtx {i : Instr} {c : CtxId} {s t : State} (hc : otherCtx i = c) (h : exec i s = .next t) (b : Bank) :
    t.bank c = s.bank c ∧ exec i (s.setBank c b) = .next (t.setBank c b) := by
  subst hc
  rw [exec_eq_runCommand, commandCheck_setBank_otherCtx]
  obtain ⟨e, hcheck, rfl⟩ | ⟨hcheck, rfl⟩ := exec_cases h
  · rw [hcheck, runCommand_some, completeError_setBank]
    exact ⟨completeError_bank e s _, rfl⟩
  · rw [hcheck, runCommand_none, commandBody_setBank_otherCtx, completeOk_setBank]
    exact ⟨(completeOk_bank _ _).trans (commandBody_bank_otherCtx i s), rfl⟩

/-- Settles O13, one half for each context that a command does not work on. -/
theorem contextsDoNotMix : Obligations.ContextsDoNotMix := by
  have other1 : ∀ i ∈ [Instr.keysched0, .encrypt, .decrypt, .zeroize0], otherCtx i = .c1 := by decide
  have other0 : ∀ i ∈ [Instr.keysched1, .keystream, .zeroize1], otherCtx i = .c0 := by decide
  exact ⟨fun i _ _ b hi h => exec_otherCtx (other1 i hi) h b,
    fun i _ _ b hi h => exec_otherCtx (other0 i hi) h b⟩

/-! ## KEYED (R34) -/

/-- What the effect of a command does to the KEYED flags. -/
theorem commandBody_keyed (i : Instr) (s : State) :
    (commandBody i s).bank0.keyed =
      (if i = .keysched0 then true else if i = .zeroize0 then false else s.bank0.keyed) ∧
    (commandBody i s).bank1.keyed =
      (if i = .keysched1 then true else if i = .zeroize1 then false else s.bank1.keyed) := by
  cases i <;> exact ⟨rfl, rfl⟩

/-- ZEROIZE has no check, so it never ends in an error (R230). -/
theorem not_zeroize_of_commandCheck {i : Instr} {s : State} {e : ErrCode} (h : commandCheck i s = some e) :
    i ≠ .zeroize0 ∧ i ≠ .zeroize1 := by
  constructor <;> (rintro rfl; cases h)

/-- Settles O14: an error leaves the flags, and a completion without one leaves them as the command's effect does. -/
theorem keyedFlagFollowsCommands : Obligations.KeyedFlagFollowsCommands := by
  intro i s t h
  obtain ⟨e, hcheck, rfl⟩ | ⟨-, rfl⟩ := exec_cases h
  · obtain ⟨h0, h1⟩ := not_zeroize_of_commandCheck hcheck
    simp [h0, h1, completeError]
  · simpa using commandBody_keyed i s

/-! ## The accesses that land in BUF lie inside it (R81) -/

theorem bufByte_inside {cfg : HwConfig} {width addr a : Nat} (h : busTarget cfg width addr = .ok (.bufByte a)) :
    a < cfg.bufBytes := by
  obtain ⟨-, r, -, ht⟩ | ⟨-, b, -, inside, ht⟩ | ⟨-, b, -, -, -, ht⟩ := offsetTarget_ok (busTarget_ok h).2
  · cases ht
  · cases ht
    exact inside
  · cases ht

theorem bufWord_inside {cfg : HwConfig} {width addr a : Nat} (h : busTarget cfg width addr = .ok (.bufWord a)) :
    a + 4 ≤ cfg.bufBytes := by
  obtain ⟨-, r, -, ht⟩ | ⟨-, b, -, -, ht⟩ | ⟨-, b, -, -, inside, ht⟩ := offsetTarget_ok (busTarget_ok h).2
  · cases ht
  · cases ht
  · cases ht
    exact inside

/-! ## The invariant: updates of the state -/

namespace State.Inv

variable {s : State}

/-- The invariant says nothing of LEN, BUSYERR, IE and the agents around the engine. -/
theorem outside (h : s.Inv) (len : Word) (busyerr ie : Bool) (hostProg : List HostOp) (received : List ReadData)
    (hostStopped : Option Fault) (turns : List Turn) (draws : Nat) :
    State.Inv { s with
      len := len, busyerr := busyerr, ie := ie, hostProg := hostProg, received := received,
      hostStopped := hostStopped, turns := turns, draws := draws } :=
  ⟨h.cfg, h.buf, h.status, h.latches, h.scrubbed, h.unkeyed⟩

/-- A canonical BUF inside `BUF_BYTES` may replace BUF. -/
theorem withBuf (h : s.Inv) {m : Memory} (wf : m.wf = true) (below : m.below s.cfg.bufBytes = true) :
    (s.withBuf m).Inv :=
  ⟨h.cfg, ⟨wf, below⟩, h.status, h.latches, h.scrubbed, h.unkeyed⟩

/-- The stores may be scrubbed (R37). -/
theorem scrubKeyStores (h : s.Inv) : s.scrubKeyStores.Inv :=
  ⟨h.cfg, h.buf, h.status, h.latches, ⟨h.scrubbed.1, rfl, rfl⟩, h.unkeyed⟩

/-- A context may be replaced by one that is keyed or all zero; for context 1 under `fail_closed` only (R317). -/
theorem setBank (h : s.Inv) (c : CtxId) {b : Bank}
    (zero : (c = .c1 → s.cfg.unkeyedPolicy = .failClosed) → b.keyed = false → b.allZero) : (s.setBank c b).Inv := by
  obtain ⟨zero0, zero1⟩ := h.unkeyed
  cases c with
  | c0 => exact ⟨h.cfg, h.buf, h.status, h.latches, h.scrubbed, zero (by simp), zero1⟩
  | c1 => exact ⟨h.cfg, h.buf, h.status, h.latches, h.scrubbed, zero0, fun policy => zero fun _ => policy⟩

/-- Acceptance (R311) loads the latches from the new CMD and clears DONE, ERR and ERRCODE. -/
theorem acceptCommand (h : s.Inv) (w : Word) : (acceptCommand w s).Inv where
  cfg := h.cfg
  buf := h.buf
  status := by simp [State.statusOk]
  latches := fun _ => rfl
  scrubbed := ⟨by simp, h.scrubbed.2⟩
  unkeyed := h.unkeyed

/-- A completion without an error (R312) leaves ERRCODE 0 with ERR, and RI 0. -/
theorem completeOk (h : s.Inv) : (completeOk s).Inv where
  cfg := h.cfg
  buf := h.buf
  status := by simp [State.statusOk]
  latches := by simp [State.latchesOk]
  scrubbed := ⟨fun _ => rfl, h.scrubbed.2⟩
  unkeyed := h.unkeyed

/-- A completion with an error (R312, R313) leaves ERR with a code of R313, and RI 0. -/
theorem completeError (h : s.Inv) (e : ErrCode) : (completeError e s).Inv where
  cfg := h.cfg
  buf := h.buf
  status := by
    obtain ⟨range, nonzero⟩ := bits_range e
    exact ⟨range, by simpa using nonzero, by simp⟩
  latches := by simp [State.latchesOk]
  scrubbed := ⟨fun _ => rfl, h.scrubbed.2⟩
  unkeyed := h.unkeyed

/-- A write to STATUS (R41, R322) clears ERR and ERRCODE together. -/
theorem clearStatus (h : s.Inv) (w : Word) : (clearStatus w s).Inv where
  cfg := h.cfg
  buf := h.buf
  status := by
    obtain ⟨range, errIff, whileBusy⟩ := h.status
    refine ⟨?_, ?_, fun hb => ?_⟩
    · cases h2 : w.getLsbD 2 <;> simp [-BitVec.getLsbD_eq_getElem, h2, range]
    · cases h2 : w.getLsbD 2 <;> simp [-BitVec.getLsbD_eq_getElem, h2, errIff]
    · obtain ⟨hdone, herr⟩ := whileBusy hb
      simp [hdone, herr]
  latches := h.latches
  scrubbed := h.scrubbed
  unkeyed := h.unkeyed

/-! ## The invariant: commands -/

/-- The effect of KEYSCHED keys its context (R225). -/
theorem keyschedBody (h : s.Inv) (c : CtxId) : (keyschedBody c s).Inv := by
  obtain ⟨b, keyed, hs⟩ := keyschedBody_eq c s
  rw [hs]
  refine h.scrubKeyStores.setBank c fun _ unkeyed => ?_
  rw [keyed] at unkeyed
  cases unkeyed

/-- The effect of a block command stays inside BUF: LEN is a multiple of 8 words that fit (R285). -/
theorem blockBody (h : s.Inv) (f : Kdsb → Block → Block)
    (check : blockCheck s.cfg s.bank0 s.curLen.toNat = none) : (blockBody f s).Inv := by
  obtain ⟨-, align, fits⟩ := blockCheck_none.mp check
  exact h.withBuf (wf_mapBlocks h.buf.1 _ _) (below_mapBlocks h.buf.2 _ _ (by omega))

/-- The effect of KEYSTREAM stays inside BUF, and runs on an unkeyed context 1 under `compat_zero` only (R255, R317). -/
theorem keystreamBody (h : s.Inv) (check : streamCheck s.cfg s.bank1 s.curLen.toNat = none) : (keystreamBody s).Inv := by
  obtain ⟨keyed, -, fits⟩ := streamCheck_none.mp check
  refine (h.setBank .c1 fun policy unkeyed => ?_).withBuf (Memory.wf_writeBytes h.buf.1 _ _)
    (Memory.below_writeBytes h.buf.2 _ _ (by simpa using fits))
  have stop : unkeyedStop s.cfg s.bank1 = true := unkeyedStop_iff.mpr ⟨policy rfl, unkeyed⟩
  rw [keyed] at stop
  cases stop

/-- The effect of ZEROIZE zeroes the context it unkeys (R230). -/
theorem zeroizeBody (h : s.Inv) (c : CtxId) : (zeroizeBody c s).Inv := h.setBank c fun _ _ => ⟨rfl, rfl⟩

/-- The effect of a command that passes its check keeps the invariant. -/
theorem commandBody (h : s.Inv) {i : Instr} (check : commandCheck i s = none) : (commandBody i s).Inv := by
  cases i with
  | keysched0 => exact h.keyschedBody .c0
  | keysched1 => exact h.keyschedBody .c1
  | encrypt => exact h.blockBody _ check
  | decrypt => exact h.blockBody _ check
  | keystream => exact h.keystreamBody check
  | zeroize0 => exact h.zeroizeBody .c0
  | zeroize1 => exact h.zeroizeBody .c1

/-- A command keeps the invariant. -/
theorem exec (h : s.Inv) {i : Instr} {t : State} (ht : exec i s = .next t) : t.Inv := by
  obtain ⟨e, -, rfl⟩ | ⟨check, rfl⟩ := exec_cases ht
  · exact h.completeError e
  · exact (h.commandBody check).completeOk

/-- A completion step keeps the invariant: a command's, or ERR_OPCODE. -/
theorem completionStep (h : s.Inv) {t : State} (ht : completionStep s = .next t) : t.Inv := by
  obtain ⟨e, -, hs⟩ | ⟨i, -, hs⟩ := completionStep_cases s <;> rw [hs] at ht
  · cases ht
    exact h.completeError .opcode
  · exact h.exec ht

/-! ## The invariant: the host -/

/-- A supported read keeps the invariant. -/
theorem readTarget (h : s.Inv) (target : Target) : (readTarget target s).Inv := by
  obtain ⟨d, n, hs, -⟩ := readTarget_eq target s
  rw [hs]
  exact h.outside ..

/-- A supported write keeps the invariant: one to BUF lands inside it (R81). -/
theorem writeTarget (h : s.Inv) {width addr : Nat} {target : Target} (ht : busTarget s.cfg width addr = .ok target)
    (v : Word) : (writeTarget target v s).Inv := by
  obtain ⟨-, -, hs⟩ | ⟨-, -, hs⟩ | ⟨-, hs⟩ | ⟨-, hs⟩ | ⟨-, hs⟩ | ⟨a, rfl, -, hs⟩ | ⟨a, rfl, -, hs⟩ :=
    writeTarget_cases target v s <;> rw [hs]
  · exact h.acceptCommand v
  · exact h.outside ..
  · exact h.outside ..
  · exact h.clearStatus v
  · exact h.outside ..
  · exact h.withBuf (Memory.wf_write h.buf.1 _ _) (Memory.below_write h.buf.2 (bufByte_inside ht) _)
  · exact h.withBuf (Memory.wf_writeWord h.buf.1 _ _) (Memory.below_writeWord h.buf.2 _ _ (bufWord_inside ht))

/-- A host turn keeps the invariant. -/
theorem hostTurn (h : s.Inv) {t : State} (ht : hostTurn s = .next t) : t.Inv := by
  obtain rfl | ⟨rest, -, -, rfl⟩ | ⟨e, rest, -, rfl⟩ | ⟨width, addr, rest, target, -, -, rfl⟩ |
    ⟨width, addr, v, rest, target, -, hbus, rfl⟩ := hostTurn_cases ht
  · exact h
  · exact h.outside ..
  · exact h.outside ..
  · exact readTarget (h.outside (hostProg := rest) ..) target
  · exact writeTarget (h.outside (hostProg := rest) ..) hbus v

end State.Inv

/-! ## The invariant: reset and every step -/

/-- The invariant holds right after reset, for all legal interface parameters. -/
theorem inv_resetWith {cfg : HwConfig} (h : cfg.wf = true) : (State.resetWith cfg).Inv where
  cfg := h
  buf := ⟨rfl, rfl⟩
  status := by simp [State.statusOk, State.resetWith]
  latches := nofun
  scrubbed := ⟨fun _ => rfl, rfl, rfl⟩
  unkeyed := ⟨fun _ => ⟨rfl, rfl⟩, fun _ _ => ⟨rfl, rfl⟩⟩

/-- The default interface parameters are legal: `ENGINE_BASE` is a multiple of 4, whatever it is (log 3). -/
theorem default_wf : HwConfig.default.wf = true := by
  simp [HwConfig.wf, HwConfig.bufBytesOk, HwConfig.engineBaseOk, HwConfig.default]

/-- Settles O15. -/
theorem resetMeetsTheInvariant : Obligations.ResetMeetsTheInvariant :=
  ⟨fun _ => inv_resetWith, inv_resetWith default_wf⟩

/-- A reset turn establishes the invariant from legal interface parameters alone (R350). -/
theorem inv_resetEngine {s : State} (h : s.cfg.wf = true) : (resetEngine s).Inv := (inv_resetWith h).outside ..

/-- Settles O16, one case for each thing a step can do: a host turn, a completion step, an idle engine's turn, a reset. -/
theorem everyStepKeepsTheInvariant : Obligations.EveryStepKeepsTheInvariant := by
  intro s t h hstep
  obtain ⟨ts, -, hhost | ⟨-, hengine⟩ | ⟨-, rfl⟩ | ⟨-, rfl⟩⟩ := step_cases hstep
  · exact State.Inv.hostTurn (h.outside ..) hhost
  · exact State.Inv.completionStep (h.outside ..) hengine
  · exact h.outside ..
  · exact inv_resetEngine h.cfg

/-! ## What the host never writes (R32, R33, R35, R44) -/

/-- `t` has the contexts, RI and the stores of `s` and, if `s` is busy, its running command and BUF. -/
def hostFrame (s t : State) : Prop :=
  t.bank0 = s.bank0 ∧ t.bank1 = s.bank1 ∧ t.ri = s.ri ∧ t.keyBlocks = s.keyBlocks ∧ t.chunk = s.chunk ∧
    (s.busy = true → t.latched = s.latched ∧ t.curLen = s.curLen ∧ t.cmd = s.cmd ∧ t.buf = s.buf ∧ t.busy = true)

/-- What the host may write at any time: LEN, IE, the flags of STATUS but BUSY and KEYED, and its own lists. -/
theorem hostFrame_outside (s : State) (len : Word) (done err : Bool) (errcode : BitVec 4) (busyerr ie : Bool)
    (hostProg : List HostOp) (received : List ReadData) (hostStopped : Option Fault) (turns : List Turn) (draws : Nat) :
    hostFrame s { s with
      len := len, done := done, err := err, errcode := errcode, busyerr := busyerr, ie := ie, hostProg := hostProg,
      received := received, hostStopped := hostStopped, turns := turns, draws := draws } :=
  ⟨rfl, rfl, rfl, rfl, rfl, fun busy => ⟨rfl, rfl, rfl, rfl, busy⟩⟩

theorem hostFrame_readTarget (target : Target) (s : State) : hostFrame s (readTarget target s) := by
  obtain ⟨d, n, hs, -⟩ := readTarget_eq target s
  rw [hs]
  exact hostFrame_outside ..

/-- CMD and BUF are written while the engine is idle only. -/
theorem hostFrame_writeTarget (target : Target) (v : Word) (s : State) : hostFrame s (writeTarget target v s) := by
  have idle {P : Prop} (h : s.busy = false) (busy : s.busy = true) : P := by rw [h] at busy; cases busy
  obtain ⟨-, hb, hs⟩ | ⟨-, -, hs⟩ | ⟨-, hs⟩ | ⟨-, hs⟩ | ⟨-, hs⟩ | ⟨_, -, hb, hs⟩ | ⟨_, -, hb, hs⟩ :=
    writeTarget_cases target v s <;> rw [hs]
  · exact ⟨rfl, rfl, rfl, rfl, rfl, idle hb⟩
  · exact hostFrame_outside ..
  · exact hostFrame_outside ..
  · exact hostFrame_outside ..
  · exact hostFrame_outside ..
  · exact ⟨rfl, rfl, rfl, rfl, rfl, idle hb⟩
  · exact ⟨rfl, rfl, rfl, rfl, rfl, idle hb⟩

theorem hostFrame_hostTurn {s t : State} (h : hostTurn s = .next t) : hostFrame s t := by
  obtain rfl | ⟨rest, -, -, rfl⟩ | ⟨e, rest, -, rfl⟩ | ⟨_, _, rest, target, -, -, rfl⟩ |
    ⟨_, _, v, rest, target, -, -, rfl⟩ := hostTurn_cases h
  · exact hostFrame_outside ..
  · exact hostFrame_outside ..
  · exact hostFrame_outside ..
  · exact hostFrame_readTarget target { s with hostProg := rest }
  · exact hostFrame_writeTarget target v { s with hostProg := rest }

/-- When the host moves next, the step is its turn. -/
theorem step_of_hostMoves {s : State} (h : s.hostMoves) : ∃ ts, step s = hostTurn { s with turns := ts } := by
  obtain ⟨ts, hturns⟩ | ⟨hturns, idle⟩ := h
  · exact ⟨ts, step_host hturns⟩
  · exact ⟨s.turns, by rw [step_no_schedule hturns, if_neg (by simp [idle])]⟩

/-- Settles O18: a host turn changes nothing else, whatever its operation is. -/
theorem hostNeverWritesKeyMaterial : Obligations.HostNeverWritesKeyMaterial := by
  intro s t hmoves hstep
  obtain ⟨ts, hs⟩ := step_of_hostMoves hmoves
  rw [hs] at hstep
  exact hostFrame_hostTurn (s := { s with turns := ts }) hstep

/-! ## Register accesses (R40 to R43) -/

@[simp] theorem offsetTarget_reg (n : Nat) (r : Reg) : offsetTarget n 32 r.offset = .ok (.reg r) := by cases r <;> rfl

/-- A read of a register, in any state: its word arrives at the host and nothing else changes. -/
theorem step_readReg {s : State} {r : Reg} {ts : List Turn} {rest : List HostOp}
    (h : s.hostDoes (.read 32 (s.cfg.engineBase + r.offset)) ts rest) :
    step s = .next { s with turns := ts, hostProg := rest, received := .word (readReg r s) :: s.received } := by
  rw [step_hostDoes h]
  simp only [hostAccess, busTarget_window, offsetTarget_reg]
  cases r <;> rfl

/-- A write of a register, in any state, is `writeReg`, the turn and the operation used up. -/
theorem step_writeReg {s : State} {r : Reg} {w : Word} {ts : List Turn} {rest : List HostOp}
    (h : s.hostDoes (.write 32 (s.cfg.engineBase + r.offset) w) ts rest) :
    step s = .next (writeReg r w { s with turns := ts, hostProg := rest }) := by
  rw [step_hostDoes h]
  simp only [hostAccess, busTarget_window, offsetTarget_reg, writeTarget]

/-- The bits of the word STATUS reads as (R41). -/
theorem statusWord_bits (s : State) :
    (statusWord s).getLsbD 0 = s.busy ∧ (statusWord s).getLsbD 1 = s.done ∧ (statusWord s).getLsbD 2 = s.err ∧
    (statusWord s).getLsbD 3 = false ∧ (statusWord s).extractLsb' 4 4 = s.errcode ∧
    (statusWord s).getLsbD 8 = s.bank0.keyed ∧ (statusWord s).getLsbD 9 = s.bank1.keyed ∧
    (statusWord s).getLsbD 10 = s.busyerr ∧ (statusWord s).extractLsb' 11 21 = 0 := by
  refine ⟨?_, ?_, ?_, ?_, ?_, ?_, ?_, ?_, ?_⟩
  case refine_5 =>
    apply BitVec.eq_of_getLsbD_eq
    intro i hi
    simp only [statusWord, BitVec.getLsbD_extractLsb', BitVec.getLsbD_append]
    simp [hi]
  case refine_9 =>
    apply BitVec.eq_of_getLsbD_eq
    intro i hi
    have h7 : ¬ 7 + i < 4 := by omega
    have h8 : 7 + i - 4 ≠ 0 := by omega
    have h9 : 7 + i - 4 - 1 ≠ 0 := by omega
    have h10 : 7 + i - 4 - 1 - 1 ≠ 0 := by omega
    simp only [statusWord, BitVec.getLsbD_extractLsb', BitVec.getLsbD_append]
    simp [h7, h8, h9, h10]
  all_goals
    simp only [statusWord, BitVec.getLsbD_append]
    simp

/-- Settles O21: the word that arrives is `statusWord`. -/
theorem statusReadsAsTheTable : Obligations.StatusReadsAsTheTable := fun s _ _ h =>
  ⟨statusWord s, step_readReg (r := .status) h, statusWord_bits s⟩

/-- Settles O22: the write is `clearStatus`, whose `x && !b` is R41's "cleared where `b` is 1". -/
theorem statusWriteClearsOnes : Obligations.StatusWriteClearsOnes := by
  intro s w ts rest h
  have clears (x b : Bool) : (x && !b) = if b then false else x := by cases b <;> simp
  rw [step_writeReg (r := .status) h]
  simp only [writeReg, clearStatus, clears]

/-- IRQEN reads as IE (R43). -/
theorem irqenWord_eq (s : State) : irqenWord s = if s.ie then 1 else 0 := by
  cases h : s.ie <;> simp [irqenWord, h]

/-- Settles O23: each access is the read or the write of its register. -/
theorem registerAccessesAtAnyTime : Obligations.RegisterAccessesAtAnyTime := fun s _ _ _ =>
  ⟨step_readReg (r := .cmd), step_readReg (r := .len), fun h => irqenWord_eq s ▸ step_readReg (r := .irqen) h,
    step_writeReg (r := .len), step_writeReg (r := .irqen)⟩

end Sys2Proof.Machine
end

section
/-! PROOFS. The statements of 20_memory.md: which accesses are bus errors (R70, R79 to R81), reads have no side effect (R82),
BUF is little-endian (R74 to R77), and the accesses to BUF and CMD while BUSY = 1 (R84). -/

namespace Sys2Proof.Machine

/-! ## One access of the host: it lands and is served, or it is a bus error (R79) -/

/-- Where an access lands, or the bus error it ends in. -/
def Access.target (cfg : HwConfig) : Access → Except Fault Target
  | .read width addr => busTarget cfg width addr
  | .write width addr _ => busTarget cfg width addr

/-- What a supported access does once it has landed. -/
def Access.serve (t : Target) (s : State) : Access → State
  | .read _ _ => readTarget t s
  | .write _ _ v => writeTarget t v s

theorem hostAccess_of_lands {a : Access} {s : State} {t : Target} (h : a.target s.cfg = .ok t) :
    hostAccess a s = .next (a.serve t s) := by
  cases a <;> simp only [Access.target] at h <;> simp only [hostAccess, h, Access.serve]

theorem hostAccess_of_busError {a : Access} {s : State} {e : Fault} (h : a.target s.cfg = .error e) :
    hostAccess a s = busError e s := by
  cases a <;> simp only [Access.target] at h <;> simp only [hostAccess, h]

section
variable {s : State} {a : Access} {ts : List Turn} {rest : List HostOp}

theorem step_of_lands {t : Target} (h : s.hostDoes a ts rest) (lands : a.target s.cfg = .ok t) :
    step s = .next (a.serve t (s.afterHost ts rest)) :=
  (step_hostDoes h).trans (hostAccess_of_lands lands)

theorem step_of_busError {e : Fault} (h : s.hostDoes a ts rest) (error : a.target s.cfg = .error e) :
    step s = busError e (s.afterHost ts rest) :=
  (step_hostDoes h).trans (hostAccess_of_busError error)

end

/-! ## Bus errors (R70, R79 to R81) -/

@[simp] theorem readTarget_hostStopped (t : Target) (s : State) : (readTarget t s).hostStopped = s.hostStopped := by
  obtain ⟨d, n, h, -⟩ := readTarget_eq t s
  rw [h]

@[simp] theorem writeTarget_hostStopped (t : Target) (v : Word) (s : State) :
    (writeTarget t v s).hostStopped = s.hostStopped := by
  rcases writeTarget_cases t v s with ⟨-, -, h⟩ | ⟨-, -, h⟩ | ⟨-, h⟩ | ⟨-, h⟩ | ⟨-, h⟩ | ⟨_, -, -, h⟩ | ⟨_, -, -, h⟩ <;>
    simp [h]

@[simp] theorem serve_hostStopped (a : Access) (t : Target) (s : State) : (a.serve t s).hostStopped = s.hostStopped := by
  cases a with
  | read => exact readTarget_hostStopped t s
  | write _ _ v => exact writeTarget_hostStopped t v s

/-- The accesses in the window that are bus errors are the unsupported ones. -/
theorem offsetTarget_error_of_unsupported {n width off : Nat} (h : ¬ supportedAccess n width off) :
    ∃ e, offsetTarget n width off = .error e := by
  cases ht : offsetTarget n width off with
  | error e => exact ⟨e, rfl⟩
  | ok t => exact absurd (offsetTarget_ok_iff.mp ⟨t, ht⟩) h

/-- The turn of a stopped host is its bus error again: nothing new while BUSY = 1, the fault once the engine is idle. -/
theorem step_of_stopped {s : State} {ts : List Turn} {e : Fault} (hturns : s.turns = .host :: ts)
    (stopped : s.hostStopped = some e) : step s = busError e { s with turns := ts } := by
  rw [step_host hturns]
  simp only [hostTurn, stopped]

/-- Settles O20: an access in the window lands exactly when it is supported; a bus error, new or old, does the rest. -/
theorem busErrorsExactlyForUnsupportedAccesses : Obligations.BusErrorsExactlyForUnsupportedAccesses := by
  refine ⟨fun s ts rest width off a ha h => ?_, fun s ts e hturns stopped => ?_⟩
  · have target : a.target s.cfg = offsetTarget s.cfg.bufBytes width off := by
      obtain rfl | ⟨v, rfl⟩ := ha <;> exact busTarget_window ..
    refine ⟨fun supported => ?_, fun unsupported => ?_⟩
    · obtain ⟨t, ht⟩ := offsetTarget_ok_iff.mpr supported
      have running : s.hostStopped = none := h.2.1
      exact ⟨_, step_of_lands h (target.trans ht), (serve_hostStopped ..).trans running⟩
    · obtain ⟨e, he⟩ := offsetTarget_error_of_unsupported unsupported
      have hstep := step_of_busError h (target.trans he)
      exact ⟨fun idle => ⟨e, hstep.trans (busError_idle e idle)⟩, fun busy => ⟨e, hstep.trans (busError_busy e busy)⟩⟩
  · have hstep := step_of_stopped hturns stopped
    refine ⟨fun busy => ?_, fun idle => hstep.trans (busError_idle e idle)⟩
    have noted := busError_busy (s := { s with turns := ts }) e busy
    rw [hstep, noted, ← stopped]

/-! ## Reads (R82) -/

/-- Settles O24: a read lands and is `readTarget`, or it is a bus error that answers a next state while BUSY = 1 only. -/
theorem readsHaveNoSideEffect : Obligations.ReadsHaveNoSideEffect := by
  intro s t ts rest width addr h hstep
  cases target : Access.target s.cfg (.read width addr) with
  | ok x =>
    rw [step_of_lands h target] at hstep
    cases hstep
    exact .inl (readTarget_eq x (s.afterHost ts rest))
  | error e =>
    rw [step_of_busError h target] at hstep
    obtain ⟨busy, rfl⟩ := busError_next hstep
    exact .inr ⟨busy, e, rfl⟩

/-! ## Accesses to BUF (R74 to R76, R81, R84) -/

/-- An aligned 32-bit access inside BUF, at its bus address. -/
theorem busTarget_bufWord {cfg : HwConfig} {a : Nat} (aligned : a % 4 = 0) (inside : a + 4 ≤ cfg.bufBytes) :
    busTarget cfg 32 (cfg.engineBase + 0x1000 + a) = .ok (.bufWord a) := by
  rw [Nat.add_assoc, busTarget_window, offsetTarget_bufWord aligned inside]

/-- An 8-bit access inside BUF, at its bus address. -/
theorem busTarget_bufByte {cfg : HwConfig} {a : Nat} (inside : a < cfg.bufBytes) :
    busTarget cfg 8 (cfg.engineBase + 0x1000 + a) = .ok (.bufByte a) := by
  rw [Nat.add_assoc, busTarget_window, offsetTarget_bufByte inside]

section
variable {s : State}

theorem readBufWord_idle (idle : s.busy = false) (a : Nat) :
    readBufWord a s = receive (.word (s.buf.readWord a)) s := by simp [readBufWord, idle]

theorem readBufByte_idle (idle : s.busy = false) (a : Nat) :
    readBufByte a s = receive (.byte (s.buf.read a)) s := by simp [readBufByte, idle]

theorem readBufWord_busy (busy : s.busy = true) (a : Nat) :
    readBufWord a s = receive (.word (draw s).1) (draw s).2 := by simp [readBufWord, busy]

theorem readBufByte_busy (busy : s.busy = true) (a : Nat) :
    readBufByte a s = receive (.byte ((draw s).1.setWidth 8)) (draw s).2 := by simp [readBufByte, busy]

theorem writeBufWord_idle (idle : s.busy = false) (a : Nat) (v : Word) :
    writeBufWord a v s = s.withBuf (s.buf.writeWord a v) := by simp [writeBufWord, idle]

theorem writeBufByte_idle (idle : s.busy = false) (a : Nat) (v : Byte) :
    writeBufByte a v s = s.withBuf (s.buf.write a v) := by simp [writeBufByte, idle]

/-- CMD and BUF are closed to writes while BUSY = 1 (R84, R320). -/
theorem writeTarget_busy {t : Target} (busy : s.busy = true)
    (h : t = .reg .cmd ∨ (∃ a, t = .bufByte a) ∨ ∃ a, t = .bufWord a) (v : Word) : writeTarget t v s = dropWrite s := by
  obtain rfl | ⟨a, rfl⟩ | ⟨a, rfl⟩ := h
  · simp [writeTarget, writeReg, busy]
  · simp [writeTarget, writeBufByte, busy]
  · simp [writeTarget, writeBufWord, busy]

end

/-- An access at the offset of CMD or in BUF lands there. -/
theorem lands_on_cmd_or_buf {n width off : Nat} {t : Target} (lands : offsetTarget n width off = .ok t)
    (h : off = 0x000 ∨ 0x1000 ≤ off) : t = .reg .cmd ∨ (∃ a, t = .bufByte a) ∨ ∃ a, t = .bufWord a := by
  obtain ⟨-, r, rfl, rfl⟩ | ⟨-, a, -, -, rfl⟩ | ⟨-, a, -, -, -, rfl⟩ := offsetTarget_ok lands
  · cases r with
    | cmd => exact .inl rfl
    | len | status | irqen => simp [Reg.offset] at h
  · exact .inr (.inl ⟨a, rfl⟩)
  · exact .inr (.inr ⟨a, rfl⟩)

/-- Byte `i` of a word is at address `a + i` after the word is written (R75). -/
theorem Memory.read_writeWord_byte {m : Memory} (wf : m.wf = true) (a : Nat) (v : Word) {i : Nat} (h : i < 4) :
    (m.writeWord a v).read (a + i) = v.extractLsb' (8 * i) 8 := by
  rw [Memory.read_writeWord wf, if_pos (by omega), Nat.add_sub_cancel_left]

theorem Memory.read_writeWord_outside {m : Memory} (wf : m.wf = true) {a b : Nat} (v : Word) (h : b < a ∨ a + 4 ≤ b) :
    (m.writeWord a v).read b = m.read b := by
  rw [Memory.read_writeWord wf, if_neg (by omega)]

/-- Settles O25: the write lands on its word or its byte, and every byte of the new BUF reads as R75 says. -/
theorem bufWritesAreLittleEndian : Obligations.BufWritesAreLittleEndian := by
  intro s ts rest a v wf idle
  refine ⟨fun h aligned inside => ?_, fun h inside => ?_⟩
  · have hstep := step_of_lands h (busTarget_bufWord aligned inside)
    have served := writeBufWord_idle (s := s.afterHost ts rest) idle a v
    have byte (i : Nat) (hi : i < 4) := Memory.read_writeWord_byte wf a v hi
    exact ⟨s.buf.writeWord a v, hstep.trans (congrArg _ served), Memory.wf_writeWord wf a v, byte 0 (by decide),
      byte 1 (by decide), byte 2 (by decide), byte 3 (by decide), fun b => Memory.read_writeWord_outside wf v⟩
  · have hstep := step_of_lands h (busTarget_bufByte inside)
    have served := writeBufByte_idle (s := s.afterHost ts rest) idle a (v.setWidth 8)
    have lowByte : v.setWidth 8 = v.extractLsb' 0 8 := BitVec.setWidth_eq_extractLsb' (by decide)
    exact ⟨s.buf.write a (v.setWidth 8), hstep.trans (congrArg _ served), Memory.wf_write wf a _,
      (Memory.read_write_same wf a _).trans lowByte, fun b => Memory.read_write_other wf _⟩

/-- Settles O26: the word that arrives is `Memory.readWord`, little-endian by `Memory.toNat_readWord`. -/
theorem bufReadsAreLittleEndian : Obligations.BufReadsAreLittleEndian := by
  intro s ts rest a idle
  refine ⟨fun h aligned inside => ?_, fun h inside => ?_⟩
  · have hstep := step_of_lands h (busTarget_bufWord aligned inside)
    have served := readBufWord_idle (s := s.afterHost ts rest) idle a
    exact ⟨s.buf.readWord a, hstep.trans (congrArg _ served), s.buf.toNat_readWord a⟩
  · have hstep := step_of_lands h (busTarget_bufByte inside)
    have served := readBufByte_idle (s := s.afterHost ts rest) idle a
    exact hstep.trans (congrArg _ served)

/-- Settles O27: the access lands on CMD or in BUF, both closed to writes. -/
theorem busyWritesAreDropped : Obligations.BusyWritesAreDropped := by
  intro s ts rest width off v h busy supported closed
  obtain ⟨t, lands⟩ := offsetTarget_ok_iff.mpr supported
  have hstep := step_of_lands h ((busTarget_window ..).trans lands)
  have served := writeTarget_busy (s := s.afterHost ts rest) busy (lands_on_cmd_or_buf lands closed) v
  exact hstep.trans (congrArg _ served)

/-- Settles O29: the data that arrives is drawn. -/
theorem busyBufReadsAreDraws : Obligations.BusyBufReadsAreDraws := by
  intro s ts rest a busy
  refine ⟨fun h aligned inside => ?_, fun h inside => ?_⟩
  · have hstep := step_of_lands h (busTarget_bufWord aligned inside)
    have served := readBufWord_busy (s := s.afterHost ts rest) busy a
    exact hstep.trans (congrArg _ served)
  · have hstep := step_of_lands h (busTarget_bufByte inside)
    have served := readBufByte_busy (s := s.afterHost ts rest) busy a
    exact hstep.trans (congrArg _ served)

/-! ## Blocks in BUF (R77) -/

/-- The words of block `n` by their numbers in BUF. -/
theorem readBlock_eq (m : Memory) (n : Nat) :
    readBlock m n = ⟨m.readWord (4 * (8 * n)), m.readWord (4 * (8 * n + 1)), m.readWord (4 * (8 * n + 2)),
      m.readWord (4 * (8 * n + 3)), m.readWord (4 * (8 * n + 4)), m.readWord (4 * (8 * n + 5)),
      m.readWord (4 * (8 * n + 6)), m.readWord (4 * (8 * n + 7))⟩ := by
  have base : blockAddr n = 4 * (8 * n) := by unfold blockAddr; omega
  simp only [readBlock, base, Nat.mul_add, Nat.reduceMul]

/-- Settles O44: each word of the block is one word of BUF, little-endian by `Memory.toNat_readWord`. -/
theorem blocksLieLittleEndianInBuf : Obligations.BlocksLieLittleEndianInBuf := by
  intro m b
  rw [readBlock_eq]
  exact ⟨m.toNat_readWord _, m.toNat_readWord _, m.toNat_readWord _, m.toNat_readWord _, m.toNat_readWord _,
    m.toNat_readWord _, m.toNat_readWord _, m.toNat_readWord _⟩

end Sys2Proof.Machine
end

section
/-! PROOFS. The statements of 30_encoding.md: which words are legal, and what they decode to (R110 to R115). -/

namespace Sys2Proof

/-! ## Decode and encode are inverse (R113) -/

/-- Every command has legal fields, and its word is the one word with those fields. -/
theorem Laws.FieldsLegal.statement_all (i : Instr) : Laws.FieldsLegal.Statement i :=
  match i with
  | .keysched0 => keysched0
  | .keysched1 => keysched1
  | .encrypt => encrypt
  | .decrypt => decrypt
  | .keystream => keystream
  | .zeroize0 => zeroize0
  | .zeroize1 => zeroize1

/-- A word decodes to a command exactly when it is that command's word. -/
theorem decode_eq_ok_iff {w : Word} {i : Instr} : decode w = .ok i ↔ w = encode i := by
  obtain ⟨-, fields_encode, eq_encode⟩ := Laws.FieldsLegal.statement_all i
  constructor
  · intro h
    exact eq_encode w (fields_of_decodeFields_ok h)
  · rintro rfl
    rw [decode, fields_encode, decodeFields_fields_ok]

@[simp] theorem decode_encode (i : Instr) : decode (encode i) = .ok i := decode_eq_ok_iff.mpr rfl

/-- Settles O2. -/
theorem encodeThenDecode : Obligations.EncodeThenDecode := fun i =>
  ⟨(Laws.FieldsLegal.statement_all i).1, decode_encode i⟩

/-! ## The legal words (R113, R115) -/

/-- The opcodes and contexts that R113 combines, over all 32 combinations of the two fields. -/
theorem opKnown_and_ctxAllowed_iff : ∀ (op : BitVec 4) (ctx : BitVec 1),
    (CmdFields.opKnown ⟨op, ctx, 0⟩ = true ∧ CmdFields.ctxAllowed ⟨op, ctx, 0⟩ = true) ↔
      (op = 1 ∨ op = 5 ∨ ((op = 2 ∨ op = 3) ∧ ctx = 0) ∨ (op = 4 ∧ ctx = 1)) := by
  decide

/-- Legal fields, as R113 lists them. -/
theorem CmdFields.legal_iff (f : CmdFields) :
    f.legal = true ↔ f.rsvd = 0 ∧
      (f.op = 1 ∨ f.op = 5 ∨ ((f.op = 2 ∨ f.op = 3) ∧ f.ctx = 0) ∨ (f.op = 4 ∧ f.ctx = 1)) := by
  obtain ⟨op, ctx, rsvd⟩ := f
  simp only [CmdFields.legal, CmdFields.rsvdZero, Bool.and_eq_true, beq_iff_eq, and_assoc]
  refine and_congr_right ?_
  rintro rfl
  exact opKnown_and_ctxAllowed_iff op ctx

/-- The commands, in the order of the opcode map. -/
def commands : List Instr := [.keysched0, .keysched1, .encrypt, .decrypt, .keystream, .zeroize0, .zeroize1]

theorem mem_commands (i : Instr) : i ∈ commands := by cases i <;> decide

/-- A word decodes exactly when it is the word of one of the commands. -/
theorem decodes_iff_mem_words (w : Word) : (∃ i, decode w = .ok i) ↔ w ∈ commands.map encode := by
  simp only [decode_eq_ok_iff, List.mem_map, mem_commands, true_and, eq_comm (a := w)]

/-- Settles O3: the fields by `CmdFields.legal_iff`, the words by `decode_eq_ok_iff`. -/
theorem legalWordsAreExactlyTheSeven : Obligations.LegalWordsAreExactlyTheSeven := fun w =>
  ⟨legal_iff_decodeFields_ok.symm.trans (fieldsOf w).legal_iff, decodes_iff_mem_words w, fun _ => decode_eq_ok_iff.mp⟩

/-! ## The words of the opcode table -/

/-- A table word names a command exactly when it is that command's word. -/
theorem decodeTableWord_eq_some_iff {nbits w : Nat} {i : Instr} :
    decodeTableWord nbits w = some i ↔ tableWord nbits w = encode i := by
  rw [← decode_eq_ok_iff, decodeTableWord]
  cases decode (tableWord nbits w) <;> simp

/-- A table word with illegal fields names no command. -/
theorem decodeTableWord_of_illegal {nbits w : Nat} (h : (fieldsOf (tableWord nbits w)).legal = false) :
    decodeTableWord nbits w = none := by
  refine Option.eq_none_iff_forall_ne_some.mpr fun i named => ?_
  have legal : (fieldsOf (tableWord nbits w)).legal = true :=
    legal_iff_decodeFields_ok.mpr ⟨i, decode_eq_ok_iff.mpr (decodeTableWord_eq_some_iff.mp named)⟩
  exact absurd legal (by simp [h])

/-- Settles O1: seven words of commands, then one with a CTX its opcode does not allow three times, a reserved opcode
three times, and a bit of RSVD set. -/
theorem tableWordsDecode : Obligations.TableWordsDecode :=
  have named {w : Nat} {i : Instr} := @decodeTableWord_eq_some_iff 32 w i
  have illegal {w : Nat} := @decodeTableWord_of_illegal 32 w
  ⟨named.mpr rfl, named.mpr rfl, named.mpr rfl, named.mpr rfl, named.mpr rfl, named.mpr rfl, named.mpr rfl,
    illegal rfl, illegal rfl, illegal rfl, illegal rfl, illegal rfl, illegal rfl, illegal rfl⟩

end Sys2Proof
end

section
/-! PROOFS. The statements of 40_primitives.md: the diffusion functions (R142, R143), the selectors (R144 to R146) and the
NLFSR (R147, R148). -/

namespace Sys2Proof.Machine

/-! ## The NLFSR (R147, R148) -/

theorem getLsbD_nlfsrRound_of_lt (P : OpenParams) (r : Word) {i : Nat} (hi : i < 31) :
    (nlfsrRound P r).getLsbD i = r.getLsbD (i + 1) := by
  rw [getLsbD_nlfsrRound P r i (by omega), if_neg (by omega)]

theorem getLsbD_nlfsrRound_31 (P : OpenParams) (r : Word) : (nlfsrRound P r).getLsbD 31 = nlfsrFeedback P r :=
  getLsbD_nlfsrRound P r 31 (by decide)

/-- Bit 0 enters the feedback by XOR only: words with the same bits 1 .. 31 and the same feedback bit are equal. -/
theorem eq_of_nlfsrFeedback_eq {P : OpenParams} {x y : Word}
    (upper : ∀ i, 0 < i → i < 32 → x.getLsbD i = y.getLsbD i) (h : nlfsrFeedback P x = nlfsrFeedback P y) : x = y := by
  have lowest : x.getLsbD 0 = y.getLsbD 0 := by
    simp (disch := decide) only [nlfsrFeedback, upper] at h
    exact Bool.xor_right_inj.mp (Bool.xor_right_inj.mp h)
  apply BitVec.eq_of_getLsbD_eq
  intro i hi
  cases i with
  | zero => exact lowest
  | succ i => exact upper _ i.succ_pos hi

/-- A round's result holds the word's bits 1 .. 31 as its bits 0 .. 30, and the feedback bit as its bit 31. -/
theorem nlfsrRound_injective (P : OpenParams) : Function.Injective (nlfsrRound P) := by
  intro x y h
  have feedback : nlfsrFeedback P x = nlfsrFeedback P y := by
    rw [← getLsbD_nlfsrRound_31, ← getLsbD_nlfsrRound_31, h]
  refine eq_of_nlfsrFeedback_eq (fun i pos hi => ?_) feedback
  obtain ⟨i, rfl⟩ := Nat.exists_eq_succ_of_ne_zero (Nat.ne_of_gt pos)
  rw [← getLsbD_nlfsrRound_of_lt P x (by omega), ← getLsbD_nlfsrRound_of_lt P y (by omega), h]

/-- A round undone: the word shifted back, with the bit 0 that makes the feedback of the result the word's bit 31. -/
def nlfsrUnround (P : OpenParams) (y : Word) : Word :=
  y.shiftConcat (y.getLsbD 31 ^^ nlfsrFeedback P (y.shiftConcat false))

/-- The bit shifted in at bit 0 enters the feedback by XOR only. -/
theorem nlfsrFeedback_shiftConcat (P : OpenParams) (y : Word) (b : Bool) :
    nlfsrFeedback P (y.shiftConcat b) = (nlfsrFeedback P (y.shiftConcat false) ^^ b) := by
  have lowest (b : Bool) : (y.shiftConcat b).getLsbD 0 = b := by
    rw [BitVec.getLsbD_shiftConcat, decide_eq_true (by decide), Bool.true_and, if_pos rfl]
  have upper (i : Nat) (pos : 0 < i) : (y.shiftConcat b).getLsbD i = (y.shiftConcat false).getLsbD i := by
    rw [BitVec.getLsbD_shiftConcat, BitVec.getLsbD_shiftConcat, if_neg (Nat.ne_of_gt pos), if_neg (Nat.ne_of_gt pos)]
  simp (disch := decide) only [nlfsrFeedback, lowest, upper, Bool.xor_false, Bool.xor_assoc]

theorem nlfsrRound_nlfsrUnround (P : OpenParams) (y : Word) : nlfsrRound P (nlfsrUnround P y) = y := by
  apply BitVec.eq_of_getLsbD_eq
  intro i hi
  by_cases top : i = 31
  · subst top
    rw [getLsbD_nlfsrRound_31, nlfsrUnround, nlfsrFeedback_shiftConcat, Bool.xor_comm, Bool.xor_assoc, Bool.xor_self,
      Bool.xor_false]
  · rw [getLsbD_nlfsrRound_of_lt P _ (by omega), nlfsrUnround, BitVec.getLsbD_shiftConcat,
      decide_eq_true (by omega), Bool.true_and, if_neg i.succ_ne_zero, Nat.add_sub_cancel]

theorem nlfsrRounds_surjective (P : OpenParams) (n : Nat) : Function.Surjective (nlfsrRounds P n) := by
  induction n with
  | zero => exact Function.surjective_id
  | succ n ih => exact ih.comp fun y => ⟨nlfsrUnround P y, nlfsrRound_nlfsrUnround P y⟩

theorem nlfsr_surjective (P : OpenParams) : Function.Surjective (nlfsr P) := fun y => by
  simpa only [nlfsr_eq] using nlfsrRounds_surjective P 64 y

theorem nlfsrRounds_injective (P : OpenParams) (n : Nat) : Function.Injective (nlfsrRounds P n) := by
  induction n with
  | zero => exact Function.injective_id
  | succ n ih => exact ih.comp (nlfsrRound_injective P)

theorem nlfsr_injective (P : OpenParams) : Function.Injective (nlfsr P) := fun x y h =>
  nlfsrRounds_injective P 64 (by rwa [nlfsr_eq, nlfsr_eq] at h)

/-- Settles O56: each round is injective and surjective, and so are 64 of them. -/
theorem nlfsrIsAPermutation : Obligations.NlfsrIsAPermutation := by
  intro P
  refine ⟨fun r => ?_, fun r _ => getLsbD_nlfsrRound_of_lt P r, getLsbD_nlfsrRound_31 P,
    fun _ _ h => nlfsr_injective P h, nlfsr_surjective P⟩
  rw [nlfsr_eq, nlfsrRounds_eq_foldl]

/-! ## The selectors (R144 to R146) -/

/-- FF below the boundary, which is 96 at size 128 (R146). -/
theorem selectFF_of_lt {index : Nat} (h : index < 96) (A B C : Word) : selectFF A B C index 128 = A ^^^ B ^^^ C :=
  if_pos h

theorem selectFF_of_ge {index : Nat} (h : 96 ≤ index) (A B C : Word) :
    selectFF A B C index 128 = (A &&& B) ||| (A &&& C) ||| (B &&& C) :=
  if_neg (Nat.not_lt.mpr h)

/-- GG below the boundary, which is 96 at size 128 (R146). -/
theorem selectGG_of_lt {index : Nat} (h : index < 96) (A B C : Word) : selectGG A B C index 128 = A ^^^ B ^^^ C :=
  if_pos h

theorem selectGG_of_ge {index : Nat} (h : 96 ≤ index) (A B C : Word) :
    selectGG A B C index 128 = (A &&& B) ||| (~~~A &&& C) :=
  if_neg (Nat.not_lt.mpr h)

/-- Majority of three bits: at least two are 1. -/
theorem majority_iff : ∀ a b c : Bool, (a && b || a && c || b && c) = true ↔ 2 ≤ a.toNat + b.toNat + c.toNat := by
  decide

/-- Choose: the first bit selects between the other two. -/
theorem choose_eq_ite : ∀ a b c : Bool, (a && b || !a && c) = if a then b else c := by
  decide

/-- Settles O55: on each side of the boundary the selector is one formula over words, read at one bit. -/
theorem selectorsBitByBit : Obligations.SelectorsBitByBit := by
  intro A B C index i hi
  refine ⟨fun below => ?_, fun above => ?_⟩
  · rw [selectFF_of_lt below, selectGG_of_lt below]
    simp only [BitVec.getLsbD_xor, and_self]
  · rw [selectFF_of_ge above, selectGG_of_ge above]
    simp only [BitVec.getLsbD_or, BitVec.getLsbD_and, BitVec.getLsbD_not, hi, decide_true, Bool.true_and]
    exact ⟨majority_iff _ _ _, choose_eq_ite _ _ _⟩

/-! ## The diffusion functions (R142, R143) -/

theorem diffuseL_xor (x y : Word) : diffuseL (x ^^^ y) = diffuseL x ^^^ diffuseL y := by
  simp only [diffuseL, rotl_xor]
  ac_rfl

theorem diffuseL2_xor (x y : Word) : diffuseL2 (x ^^^ y) = diffuseL2 x ^^^ diffuseL2 y := by
  simp only [diffuseL2, rotl_xor]
  ac_rfl

/-- Settles O54: the rotations are those of bit vectors and distribute over XOR; the six values are computed. -/
theorem diffusionIsLinear : Obligations.DiffusionIsLinear := by
  intro x y
  refine ⟨?_, ?_, diffuseL_xor x y, diffuseL2_xor x y, by decide, by decide, by decide, by decide, by decide, by decide⟩
  · simp only [diffuseL, rotl_eq_rotateLeft, Nat.reduceMod]
  · simp only [diffuseL2, rotl_eq_rotateLeft, Nat.reduceMod]

end Sys2Proof.Machine
end

section
/-! PROOFS. The statements of 41_mixing.md: RandomAccessMix (R183, R184), ComplexMix (R185 to R189), the round operator
and its footprint (R182, R190), and the pass (R191, R192). -/

namespace Sys2Proof.Machine

/-! ## RandomAccessMix (R183, R184) -/

section
variable (P : OpenParams) (c : Fin 128) (ri : RandomIndex) (K : Kdsb)

@[simp] theorem randomAccessMix_ri : (randomAccessMix P c ri K).2 = ri := rfl

@[simp] theorem kRead_randomAccessMix_same :
    kRead (randomAccessMix P c ri K).1 c =
      P.ramFold (kRead K c ^^^ kRead K (mixPos ri)) (P.magic (Fin.ofNat 4 (mixPos ri).val)) c (mixPos ri) ri := by
  simp only [randomAccessMix, kRead_kWrite_same]

theorem kRead_randomAccessMix_other {i : Fin 128} (h : i ≠ c) :
    kRead (randomAccessMix P c ri K).1 i = kRead K i := by
  simp only [randomAccessMix, kRead_kWrite_other _ _ h]

end

/-- Settles O57: `mixPos` is the statement's `pos`, and a word XOR itself is 0. -/
theorem randomAccessMixWritesOneWord : Obligations.RandomAccessMixWritesOneWord := by
  intro P c ri K
  refine ⟨randomAccessMix_ri P c ri K, fun _ => kRead_randomAccessMix_other P c ri K,
    kRead_randomAccessMix_same P c ri K, fun pos_eq => ?_⟩
  have mixPos_eq : mixPos ri = c := pos_eq
  have xor_eq_zero : kRead K c ^^^ kRead K (mixPos ri) = 0 := by rw [mixPos_eq]; exact BitVec.xor_self
  rw [kRead_randomAccessMix_same, xor_eq_zero]
  rfl

/-! ## ComplexMix (R185 to R189) -/

theorem idx_neg_one_eq (c : Fin 128) : idx c (-1) = ⟨(c.val + 127) % 128, Nat.mod_lt _ (by decide)⟩ :=
  Fin.ext (idx_neg_one c)

theorem idx_neg_two_eq (c : Fin 128) : idx c (-2) = ⟨(c.val + 126) % 128, Nat.mod_lt _ (by decide)⟩ :=
  Fin.ext (idx_neg_two c)

theorem idx_neg_three_eq (c : Fin 128) : idx c (-3) = ⟨(c.val + 125) % 128, Nat.mod_lt _ (by decide)⟩ :=
  Fin.ext (idx_neg_three c)

section
variable (c : Fin 128) (ri : RandomIndex) (K : Kdsb)

/-- The steps 2 to 4 write K[c] three times and read the words before it, which none of the writes changes. -/
theorem kRead_complexMixHead_same :
    kRead (complexMixHead c ri K) c =
      (kRead K c ^^^ (kRead K (idx c (-2)) ^^^ kRead K (idx c (-1)))) +
        selectGG (BitVec.ofNat 32 c.val) (kRead K (idx c (-1))) (lo32 ri) c.val 128 -
        selectFF (kRead K (idx c (-3))) (diffuseL (kRead K (idx c (-2)))) (kRead K (idx c (-1))) c.val 128 := by
  simp only [complexMixHead, kRead_kWrite_same, kRead_kWrite_other _ _ (idx_neg_one_ne c),
    kRead_kWrite_other _ _ (idx_neg_two_ne c), kRead_kWrite_other _ _ (idx_neg_three_ne c)]

theorem kRead_complexMixHead_other {i : Fin 128} (h : i ≠ c) : kRead (complexMixHead c ri K) i = kRead K i := by
  simp only [complexMixHead, kRead_kWrite_other _ _ h]

end

/-- Settles O58: the words and the RI that the tail gets are those of `complexMixHead` and `nlfsrHalves`. -/
theorem complexMixStepsOneToFour : Obligations.ComplexMixStepsOneToFour := by
  intro P c ri K
  refine ⟨complexMixHead c (nlfsrHalves P ri) K, nlfsrHalves P ri, rfl, hi32_join64 _ _, lo32_join64 _ _,
    fun _ => kRead_complexMixHead_other c _ K, ?_⟩
  rw [kRead_complexMixHead_same, idx_neg_one_eq, idx_neg_two_eq, idx_neg_three_eq]
  rfl

/-! ## The round operator and its footprint (R182, R188, R190) -/

section
variable {P : OpenParams} {c i : Fin 128}

/-- With the tail's write footprint ComplexMix writes at most K[c], K[c+1] and K[c+2]. -/
theorem kRead_complexMix_other (tail : OpenParamsTailFootprint P) (h0 : i ≠ c) (h1 : i ≠ idx c 1) (h2 : i ≠ idx c 2)
    (ri : RandomIndex) (K : Kdsb) : kRead (complexMix P c ri K).1 i = kRead K i := by
  rw [complexMix, tail c _ _ i h1 h2, kRead_complexMixHead_other c _ K h0]

/-- With both write footprints the round operator writes at most K[c], K[c+1] and K[c+2]. -/
theorem kRead_roundOp_other (mix : OpenParamsMixFootprint P) (tail : OpenParamsTailFootprint P) (h0 : i ≠ c)
    (h1 : i ≠ idx c 1) (h2 : i ≠ idx c 2) (ri : RandomIndex) (K : Kdsb) :
    kRead (roundOp P c ri K).1 i = kRead K i := by
  rw [roundOp, kRead_complexMix_other tail h0 h1 h2, kRead_randomAccessMix_other P c _ _ h0, mixWithAddSubtract,
    mix c ri K i h0 h1]

/-- With both footprints of `MIX_AS`, a write to a word it does not work on commutes with MixWithAddSubtract. -/
theorem mixWithAddSubtract_kWrite (mix : OpenParamsMixFootprint P) (reads : OpenParamsMixReads P) (h0 : i ≠ c)
    (h1 : i ≠ idx c 1) (ri : RandomIndex) (K : Kdsb) (v : Word) :
    mixWithAddSubtract P c ri (kWrite K i v) =
      (kWrite (mixWithAddSubtract P c ri K).1 i v, (mixWithAddSubtract P c ri K).2) := by
  obtain ⟨same_ri, same_c, same_next⟩ := reads c ri (kWrite K i v) K (kRead_kWrite_other K v h0.symm)
    (kRead_kWrite_other K v h1.symm)
  refine Prod.ext (words_ext fun j => ?_) same_ri
  simp only [mixWithAddSubtract]
  by_cases atC : j = c
  · rw [atC, same_c, kRead_kWrite_other _ v h0.symm]
  by_cases atNext : j = idx c 1
  · rw [atNext, same_next, kRead_kWrite_other _ v h1.symm]
  rw [mix c ri _ j atC atNext]
  by_cases atI : j = i
  · rw [atI, kRead_kWrite_same, kRead_kWrite_same]
  · rw [kRead_kWrite_other _ v atI, kRead_kWrite_other _ v atI, mix c ri K j atC atNext]

end

/-- Settles O59: `idx c 1` and `idx c 2` are the statement's indexes modulo 128. -/
theorem roundOpFootprint : Obligations.RoundOpFootprint := by
  have ne_one {c i : Fin 128} (h : i.val ≠ (c.val + 1) % 128) : i ≠ idx c 1 := Fin.ne_of_val_ne (idx_one c ▸ h)
  have ne_two {c i : Fin 128} (h : i.val ≠ (c.val + 2) % 128) : i ≠ idx c 2 := Fin.ne_of_val_ne (idx_two c ▸ h)
  intro P mix
  refine ⟨fun tail c ri K i h0 h1 h2 => ?_, fun reads c ri K i v h0 h1 => ?_⟩
  · exact kRead_roundOp_other mix tail h0 (ne_one h1) (ne_two h2) ri K
  · exact mixWithAddSubtract_kWrite mix reads h0 (ne_one h1) ri K v

/-! ## The pass (R191, R192) -/

/-- The counters repeat after an outer round: 128 + n rounds are an outer round and then n rounds. -/
theorem roundOps_add_outerRound (P : OpenParams) (n : Nat) (m : Kdsb × RandomIndex) :
    roundOps P (128 + n) m = roundOps P n (outerRound P m) := by
  induction n with
  | zero => rfl
  | succ n ih =>
    have counter : Fin.ofNat 128 (128 + n) = Fin.ofNat 128 n := Fin.ext (Nat.add_mod_left 128 n)
    rw [← Nat.add_assoc, roundOps, roundOps, ih, counter]

theorem pass_eq_roundOps (P : OpenParams) (ri : RandomIndex) (K : Kdsb) : pass P ri K = roundOps P 512 (K, ri) := by
  rw [pass_eq, show 512 = 128 + (128 + (128 + 128)) from rfl, roundOps_add_outerRound, roundOps_add_outerRound,
    roundOps_add_outerRound, ← outerRound]

/-- Settles O60: four outer rounds are 512 rounds, and those are a fold over their counters. -/
theorem passIs512RoundOps : Obligations.PassIs512RoundOps := fun P ri K =>
  ⟨fun _ => rfl, by rw [pass_eq_roundOps, roundOps_eq_foldl]⟩

end Sys2Proof.Machine
end

section
/-! PROOFS. The statements of 42_keysched.md: the key words (R210), the chunks (R213 to R222), KEYSCHED (R225, R226) and
ZEROIZE (R230). -/

namespace Sys2Proof.Machine

/-! ## A command whose check is known (R312, R314) -/

section
variable {i : Instr} {s : State}

theorem exec_of_check_none (h : commandCheck i s = none) : exec i s = .next (completeOk (commandBody i s)) := by
  rw [exec_eq_runCommand, h, runCommand_none]

theorem exec_of_check_some {e : ErrCode} (h : commandCheck i s = some e) : exec i s = .next (completeError e s) := by
  rw [exec_eq_runCommand, h, runCommand_some]

end

/-! ## KEYSCHED (R225, R226) -/

/-- The KEYSCHED of a context. -/
def keyschedOf : CtxId → Instr
  | .c0 => .keysched0
  | .c1 => .keysched1

theorem commandCheck_keyschedOf (c : CtxId) (s : State) :
    commandCheck (keyschedOf c) s = keyCheck s.cfg s.curLen.toNat := by cases c <;> rfl

theorem commandBody_keyschedOf (c : CtxId) : commandBody (keyschedOf c) = keyschedBody c := by cases c <;> rfl

/-- The context that KEYSCHED leaves: keyed, with KDSB and State of the key in BUF. -/
def keyschedBank (s : State) : Bank :=
  let t := keySchedule Config.openParams s.cfg (readKey s.buf s.curLen.toNat)
  ⟨t.k, t.s, true⟩

/-- The stores that KEYSCHED loads are scrubbed again, so its effect is on its context alone. -/
theorem keyschedBody_eq_setBank (c : CtxId) (s : State) :
    keyschedBody c s = s.scrubKeyStores.setBank c (keyschedBank s) := by cases c <;> rfl

theorem exec_keyschedOf_of_ready {s : State} (h : s.keyReady) (c : CtxId) :
    exec (keyschedOf c) s = .next (completeOk (s.scrubKeyStores.setBank c (keyschedBank s))) := by
  rw [exec_of_check_none ((commandCheck_keyschedOf c s).trans (keyCheck_none.mpr h)), commandBody_keyschedOf,
    keyschedBody_eq_setBank]

theorem exec_keyschedOf_of_not_ready {s : State} (h : ¬ s.keyReady) (c : CtxId) :
    exec (keyschedOf c) s = .next (completeError .length s) :=
  exec_of_check_some ((commandCheck_keyschedOf c s).trans (if_neg h))

/-- The key as the bytes of BUF from address 0 on (R78). -/
theorem readKey_eq (m : Memory) (len : Nat) : readKey m len = (List.range len).map m.read := by
  simp only [readKey, Memory.readBytes, Nat.zero_add]

/-- Settles O31: the state of `exec_keyschedOf_of_ready`, field by field. -/
theorem keyschedKeysItsContext : Obligations.KeyschedKeysItsContext := by
  intro s ready
  rw [← readKey_eq]
  exact ⟨exec_keyschedOf_of_ready ready .c0, exec_keyschedOf_of_ready ready .c1⟩

/-- Settles O32. -/
theorem keyschedRefusesBadLength : Obligations.KeyschedRefusesBadLength := by
  have keyscheds : ∀ i ∈ [Instr.keysched0, .keysched1], ∃ c, i = keyschedOf c := by
    simp only [List.forall_mem_cons]
    exact ⟨⟨.c0, rfl⟩, ⟨.c1, rfl⟩, nofun⟩
  intro s i hi notReady
  obtain ⟨c, rfl⟩ := keyscheds i hi
  exact exec_keyschedOf_of_not_ready notReady c

/-- The context that KEYSCHED leaves does not depend on anything but the parameters, LEN and the key. -/
theorem keyschedBank_congr {s t : State} (cfg : s.cfg = t.cfg) (len : s.curLen = t.curLen)
    (key : sameKey s.buf t.buf s.curLen.toNat) : keyschedBank s = keyschedBank t := by
  rw [keyschedBank, readKey_congr key, cfg, len, keyschedBank]

theorem keyReady_congr {s t : State} (cfg : s.cfg = t.cfg) (len : s.curLen = t.curLen) (h : s.keyReady) :
    t.keyReady := by
  rwa [State.keyReady, cfg, len] at h

/-- What KEYSCHED leaves in its context. -/
theorem bank_of_exec_keyschedOf {s s' : State} (ready : s.keyReady) {c : CtxId}
    (h : exec (keyschedOf c) s = .next s') : s'.bank c = keyschedBank s := by
  rw [exec_keyschedOf_of_ready ready] at h
  cases h
  cases c <;> rfl

/-- Settles O33: both states are ready, and both leave the context that their one key gives. -/
theorem keyschedForgetsHistory : Obligations.KeyschedForgetsHistory := by
  intro s t s' t' ready cfg len key
  have same (c : CtxId) (hs : exec (keyschedOf c) s = .next s') (ht : exec (keyschedOf c) t = .next t') :
      s'.bank c = t'.bank c := by
    rw [bank_of_exec_keyschedOf ready hs, bank_of_exec_keyschedOf (keyReady_congr cfg len ready) ht,
      keyschedBank_congr cfg len key]
  exact ⟨same .c0, same .c1⟩

/-! ## ZEROIZE (R230) -/

/-- Settles O39: ZEROIZE has no check, and its words are those of the opcode map. -/
theorem zeroizeClearsItsContext : Obligations.ZeroizeClearsItsContext := fun _ =>
  ⟨exec_of_check_none (i := .zeroize0) rfl, exec_of_check_none (i := .zeroize1) rfl, kRead_kZero,
    decode_encode .zeroize0, decode_encode .zeroize1⟩

/-! ## Key words (R210) -/

theorem length_keyWords (P : OpenParams) (key : List Byte) : (keyWords P key).length = (key.length + 3) / 4 :=
  (groupWords_of_length P _ _ (length_padKey key)).1

/-- A key word is the word of its group of the key, 0 past the key's end. -/
theorem getElem?_keyWords (P : OpenParams) (key : List Byte) {g : Nat} (h : g < (key.length + 3) / 4) :
    (keyWords P key)[g]? = some (groupWord P (key.getD (4 * g) 0) (key.getD (4 * g + 1) 0) (key.getD (4 * g + 2) 0)
      (key.getD (4 * g + 3) 0)) := by
  rw [keyWords, (groupWords_of_length P _ _ (length_padKey key)).2 g h]
  simp only [getD_padKey]

/-- Settles O34. -/
theorem keyWordsArePackedGroups : Obligations.KeyWordsArePackedGroups := fun P key =>
  ⟨length_keyWords P key, fun _ h => (getElem?_keyWords P key h).trans (congrArg some (groupWord_eq ..))⟩

/-! ## Chunks (R213) -/

/-- A chunk's words are the key words from the chunk's place on. -/
theorem getElem?_chunkWords (kb : List Word) (k : Nat) {p : Nat} (h : p < 128) :
    (chunkWords kb k)[p]? = kb[128 * k + p]? := by
  rw [chunkWords, List.getElem?_take_of_lt h, List.getElem?_drop]

theorem getD_chunkWords (kb : List Word) (k : Nat) (p : Fin 128) :
    (chunkWords kb k).getD p.val 0 = kb.getD (128 * k + p.val) 0 := by
  rw [List.getD_eq_getElem?_getD, getElem?_chunkWords kb k p.isLt, List.getD_eq_getElem?_getD]

theorem length_chunkWords_le (kb : List Word) (k : Nat) : (chunkWords kb k).length ≤ 128 := by
  rw [length_chunkWords]
  exact Nat.min_le_left ..

/-- Settles O35. -/
theorem chunksCoverTheKeyWords : Obligations.ChunksCoverTheKeyWords := by
  intro kb k hk
  refine ⟨rfl, length_chunkWords kb k, ?_, fun p hp => ?_⟩
  · have : k < (kb.length + 127) / 128 := hk
    rw [length_chunkWords]
    omega
  · exact getElem?_chunkWords kb k (Nat.lt_of_lt_of_le hp (length_chunkWords_le kb k))

/-! ## One chunk: load, pass, snapshot (R215 to R220) -/

/-- A chunk is loaded over the first words of K (R218). -/
theorem loadChunk_eq (K : Kdsb) (chunk : List Word) :
    loadChunk K chunk = kBuild fun p => if p.val < chunk.length then chunk.getD p.val 0 else kRead K p := by
  refine words_ext fun p => ?_
  rw [loadChunk, kRead_kBuild, kRead_kBuild, List.getD_eq_getElem?_getD, List.getD_eq_getElem?_getD]
  split
  · next inside => rw [List.getElem?_eq_getElem inside, Option.getD_some, Option.getD_some]
  · next past => rw [List.getElem?_eq_none (Nat.not_lt.mp past), Option.getD_none]

/-- A snapshot, word by word (R220). -/
theorem kRead_snapshot (cfg : HwConfig) (folded : List Word) (K : Kdsb) (S : Words128) (p : Fin 128) :
    kRead (snapshot cfg folded K S) p =
      if p.val < folded.length then snapshotWord (kRead K p) (folded.getD p.val 0)
      else if cfg.snapshotTail = .copyKdsb then kRead K p else kRead S p := by
  rw [snapshot, kRead_kBuild]
  cases cfg.snapshotTail <;> rfl

section
variable (P : OpenParams) (cfg : HwConfig) (kb : List Word) (t : Schedule)

/-- The words loaded for a chunk are passed over, from the RI of R216. -/
theorem scheduleChunk_pass (k : Nat) :
    ((scheduleChunk P cfg kb k t).k, (scheduleChunk P cfg kb k t).ri) =
      pass P (chunkStartRi cfg t.ri) (loadChunk t.k (scheduleChunk P cfg kb k t).chunk) := rfl

/-- A snapshot is taken exactly when the chunk ends at key word 128 or later (R219). -/
theorem scheduleChunk_s (k : Nat) :
    (scheduleChunk P cfg kb k t).s =
      if 128 ≤ 128 * k + (chunkWords kb k).length then
        snapshot cfg (foldedWords cfg (chunkWords kb k) (scheduleChunk P cfg kb k t).chunk)
          (scheduleChunk P cfg kb k t).k t.s
      else t.s := rfl

/-! ### Chunk 0 -/

@[simp] theorem scheduleChunk_zero_chunk : (scheduleChunk P cfg kb 0 t).chunk = chunkWords kb 0 := rfl

variable {kb}

theorem length_chunkWords_zero_of_full (full : 128 ≤ kb.length) : (chunkWords kb 0).length = 128 := by
  rw [length_chunkWords]
  omega

/-- A chunk 0 of fewer than 128 words takes no snapshot. -/
theorem scheduleChunk_zero_s_of_short (short : kb.length < 128) : (scheduleChunk P cfg kb 0 t).s = t.s := by
  rw [scheduleChunk_s, chunkWords_zero (Nat.le_of_lt short), if_neg (by omega)]

/-- A full chunk 0 is folded into every State word, and both kinds of key word of R220 are the same there. -/
theorem kRead_scheduleChunk_zero_s_of_full (full : 128 ≤ kb.length) (p : Fin 128) :
    kRead (scheduleChunk P cfg kb 0 t).s p =
      snapshotWord (kRead (scheduleChunk P cfg kb 0 t).k p) (kb.getD p.val 0) := by
  have length := length_chunkWords_zero_of_full full
  rw [scheduleChunk_s, if_pos (by omega), scheduleChunk_zero_chunk, foldedWords_same, kRead_snapshot,
    if_pos (Nat.lt_of_lt_of_eq p.isLt length.symm), getD_chunkWords, Nat.mul_zero, Nat.zero_add]

/-! ### Later chunks -/

variable {k : Nat}

/-- A later chunk is mixed with State before it is loaded (R217). -/
theorem scheduleChunk_later_chunk (later : 1 ≤ k) :
    (scheduleChunk P cfg kb k t).chunk = premix (chunkWords kb k) t.s := if_neg (by omega)

theorem length_scheduleChunk_later_chunk (later : 1 ≤ k) :
    (scheduleChunk P cfg kb k t).chunk.length = (chunkWords kb k).length := by
  rw [scheduleChunk_later_chunk P cfg t later, length_premix _ _ (length_chunkWords_le kb k)]

theorem getD_scheduleChunk_later_chunk (later : 1 ≤ k) {p : Fin 128} (inside : p.val < (chunkWords kb k).length) :
    (scheduleChunk P cfg kb k t).chunk.getD p.val 0 =
      premixWord (kb.getD (128 * k + p.val) 0) (kRead t.s p) := by
  rw [scheduleChunk_later_chunk P cfg t later, getD_premix _ _ _ inside, getD_chunkWords]

/-- Both kinds of key word of R220 are as many as the chunk has. -/
theorem length_foldedWords_later (later : 1 ≤ k) :
    (foldedWords cfg (chunkWords kb k) (scheduleChunk P cfg kb k t).chunk).length = (chunkWords kb k).length := by
  rw [foldedWords_eq]
  split
  · rfl
  · exact length_scheduleChunk_later_chunk P cfg t later

theorem getD_foldedWords_later (later : 1 ≤ k) {p : Fin 128} (inside : p.val < (chunkWords kb k).length) :
    (foldedWords cfg (chunkWords kb k) (scheduleChunk P cfg kb k t).chunk).getD p.val 0 =
      if cfg.snapshotKeyword = .original then kb.getD (128 * k + p.val) 0
      else premixWord (kb.getD (128 * k + p.val) 0) (kRead t.s p) := by
  rw [foldedWords_eq]
  split
  · exact getD_chunkWords kb k p
  · exact getD_scheduleChunk_later_chunk P cfg t later inside

/-- A later chunk ends past key word 128, so it always takes its snapshot. -/
theorem kRead_scheduleChunk_later_s (later : 1 ≤ k) (p : Fin 128) :
    kRead (scheduleChunk P cfg kb k t).s p =
      if p.val < (chunkWords kb k).length then
        snapshotWord (kRead (scheduleChunk P cfg kb k t).k p)
          (if cfg.snapshotKeyword = .original then kb.getD (128 * k + p.val) 0
            else premixWord (kb.getD (128 * k + p.val) 0) (kRead t.s p))
      else if cfg.snapshotTail = .copyKdsb then kRead (scheduleChunk P cfg kb k t).k p else kRead t.s p := by
  rw [scheduleChunk_s, if_pos (by omega), kRead_snapshot, length_foldedWords_later P cfg t later]
  exact ite_congr rfl (fun inside => by rw [getD_foldedWords_later P cfg t later inside]) fun _ => rfl

end

/-! ## Keys of one chunk (R221) -/

section
variable (P : OpenParams) (cfg : HwConfig) {key : List Byte}

theorem keySchedule_single (nonempty : 1 ≤ key.length) (single : key.length ≤ 512) :
    keySchedule P cfg key = scheduleChunk P cfg (keyWords P key) 0 scheduleStart := by
  have length := length_keyWords P key
  exact scheduleWords_single P cfg (by omega) (by omega)

/-- A key of one chunk takes one pass, from RI 0, over its words and zeros after them. -/
theorem keySchedule_single_pass (nonempty : 1 ≤ key.length) (single : key.length ≤ 512) :
    ((keySchedule P cfg key).k, (keySchedule P cfg key).ri) =
      pass P 0 (kBuild fun p => (keyWords P key).getD p.val 0) := by
  have length := length_keyWords P key
  rw [keySchedule_single P cfg nonempty single, scheduleChunk_pass, scheduleChunk_zero_chunk,
    chunkWords_zero (by omega), ← loadChunk_kZero, ← chunkStartRi_zero cfg]
  rfl

end

/-- Settles O36: 508 bytes are 127 words, so chunk 0 takes no snapshot. -/
theorem shortKeysLeaveStateZero : Obligations.ShortKeysLeaveStateZero := by
  intro P cfg key nonempty short
  have single : key.length ≤ 512 := by omega
  have length := length_keyWords P key
  refine ⟨?_, keySchedule_single_pass P cfg nonempty single⟩
  rw [keySchedule_single P cfg nonempty single, scheduleChunk_zero_s_of_short P cfg _ (by omega)]
  rfl

/-- Settles O37: 509 to 512 bytes are 128 words, so chunk 0 takes a snapshot of every word. -/
theorem oneChunkKeysSnapshotOnce : Obligations.OneChunkKeysSnapshotOnce := by
  intro P cfg key full single
  have nonempty : 1 ≤ key.length := by omega
  have length := length_keyWords P key
  refine ⟨keySchedule_single_pass P cfg nonempty single, ?_⟩
  rw [keySchedule_single P cfg nonempty single]
  exact kRead_scheduleChunk_zero_s_of_full P cfg _ (by omega)

/-! ## Keys of any length (R222) -/

/-- Chunk 0: its words are loaded as they are, and State changes with 128 words only. -/
theorem scheduleChunk_zero_words (P : OpenParams) (cfg : HwConfig) (kb : List Word) (t : Schedule) :
    let u := scheduleChunk P cfg kb 0 t
    (u.k, u.ri) = pass P (chunkStartRi cfg t.ri)
      (kBuild fun p => if p.val < min 128 kb.length then kb.getD p.val 0 else kRead t.k p) ∧
    ∀ p : Fin 128, kRead u.s p =
      if kb.length < 128 then kRead t.s p else snapshotWord (kRead u.k p) (kb.getD p.val 0) := by
  refine ⟨?_, fun p => ?_⟩
  · simp only [scheduleChunk_pass, scheduleChunk_zero_chunk, loadChunk_eq, length_chunkWords, getD_chunkWords,
      Nat.mul_zero, Nat.zero_add, Nat.sub_zero]
  · split
    · next short => rw [scheduleChunk_zero_s_of_short P cfg t short]
    · next full => exact kRead_scheduleChunk_zero_s_of_full P cfg t (Nat.not_lt.mp full) p

/-- A later chunk: its words are mixed with State and loaded over the K of the chunk before. -/
theorem scheduleChunk_later_pass (P : OpenParams) (cfg : HwConfig) (kb : List Word) (t : Schedule) {k : Nat}
    (later : 1 ≤ k) :
    ((scheduleChunk P cfg kb k t).k, (scheduleChunk P cfg kb k t).ri) = pass P (chunkStartRi cfg t.ri)
      (kBuild fun p =>
        if p.val < (chunkWords kb k).length then premixWord (kb.getD (128 * k + p.val) 0) (kRead t.s p)
        else kRead t.k p) := by
  rw [scheduleChunk_pass, loadChunk_eq, length_scheduleChunk_later_chunk P cfg t later]
  refine congrArg (fun f => pass P _ (kBuild f)) (funext fun p => ?_)
  exact ite_congr rfl (getD_scheduleChunk_later_chunk P cfg t later) fun _ => rfl

/-- Settles O38: the fold is the recursion over the chunks, and the two clauses on a chunk write out `chunkStartRi`,
`premixWord` and `snapshotWord`. -/
theorem laterChunksFeedBack : Obligations.LaterChunksFeedBack := fun P cfg =>
  ⟨fun key => scheduleChunks_eq_foldl P cfg (keyWords P key) _,
    fun kb t _ => scheduleChunk_zero_words P cfg kb t,
    fun kb _ t later _ => ⟨scheduleChunk_later_pass P cfg kb t later, kRead_scheduleChunk_later_s P cfg t later⟩⟩

end Sys2Proof.Machine
end

section
/-! PROOFS. The statements of 43_stream.md: Generate (R251 to R253), KEYSTREAM with its bytes and its errors (R254, R255),
and the restart of the keystream (R256). -/

namespace Sys2Proof.Machine

/-! ## Generate (R251 to R253) -/

/-- The first iterations as a fold in rising order. -/
theorem generateSteps_eq_foldl (P : OpenParams) (n : Nat) (t : Generator) :
    generateSteps P n t = (List.range n).foldl (fun t n => generateStep P (Fin.ofNat 128 n) t) t := by
  induction n with
  | zero => rfl
  | succ n ih => rw [List.range_succ, List.foldl_append, ← ih]; rfl

section
variable (P : OpenParams) (i : Fin 128) (t : Generator)

/-- An iteration folds State word `i` into `K[i]` and runs one pass, from its RI on. -/
theorem generateStep_pass :
    ((generateStep P i t).k, (generateStep P i t).ri) =
      pass P t.ri (kWrite t.k i (foldIn (kRead t.k i) (kRead t.s i))) := rfl

/-- What an iteration does to State: word `i` alone, with the new `K[i]` folded back. -/
theorem generateStep_s :
    (generateStep P i t).s = kWrite t.s i (foldBack (kRead t.s i) (kRead (generateStep P i t).k i)) := rfl

end

/-- Settles O41: the recursion of Generate is the fold over its iterations, and the clauses on an iteration write out
`foldIn` and `foldBack`. -/
theorem generateFoldsAndPasses : Obligations.GenerateFoldsAndPasses := by
  intro P
  refine ⟨fun K S => ?_, fun i t => ⟨generateStep_pass P i t, ?_, fun j other => ?_⟩⟩
  · rw [generate_eq, generateSteps_eq_foldl]
  · rw [generateStep_s, kRead_kWrite_same, foldBack, highHalf, lowHalf]
  · rw [generateStep_s, kRead_kWrite_other _ _ other]

/-! ## Keystream bytes (R254) -/

/-- A keystream byte as the shifted and masked State word of R254. -/
theorem keystreamByte_eq (S : Words128) {b : Nat} (h : b < 512) :
    keystreamByte S b = ((kRead S ⟨b / 4, by omega⟩ >>> (8 * (b % 4))) &&& 0xFF).setWidth 8 := by
  have word : Fin.ofNat 128 (b / 4) = ⟨b / 4, by omega⟩ := Fin.ext (Nat.mod_eq_of_lt (by omega))
  have mask : (0xFF : Word).setWidth 8 = BitVec.allOnes 8 := by decide
  rw [keystreamByte, word, BitVec.setWidth_and, mask, BitVec.and_allOnes]
  rfl

/-! ## KEYSTREAM (R255) -/

/-- The context that KEYSTREAM leaves: advanced by Generate, and as keyed as it was. -/
def keystreamBank (b : Bank) : Bank :=
  let g := generate Config.openParams b.kdsb b.state
  ⟨g.k, g.s, b.keyed⟩

theorem streamCheck_none_iff_ready {s : State} : streamCheck s.cfg s.bank1 s.curLen.toNat = none ↔ s.streamReady :=
  streamCheck_none.trans (and_congr_left' unkeyedStop_false)

/-- A KEYSTREAM that executes changes context 1 and the first LEN bytes of BUF alone. -/
theorem exec_keystream_of_ready {s : State} (h : s.streamReady) :
    exec .keystream s = .next (completeOk ((s.setBank .c1 (keystreamBank s.bank1)).withBuf
      (s.buf.writeBytes 0 (keystreamBytes (keystreamBank s.bank1).state s.curLen.toNat)))) :=
  exec_of_check_none (i := .keystream) (streamCheck_none_iff_ready.mpr h)

/-- Settles O40: the state of `exec_keystream_of_ready`, with BUF read byte by byte. -/
theorem keystreamAdvancesAndFillsBuf : Obligations.KeystreamAdvancesAndFillsBuf := by
  intro s wf ready g
  refine ⟨s.buf.writeBytes 0 (keystreamBytes g.s s.curLen.toNat), exec_keystream_of_ready ready,
    Memory.wf_writeBytes wf 0 _, fun b inside written => ?_, fun a past => ?_⟩
  · rw [read_keystream wf, if_pos written, keystreamByte_eq g.s inside]
  · rw [read_keystream wf, if_neg (Nat.not_lt.mpr past)]

/-- ERR_UNKEYED comes before ERR_LENGTH (R316). -/
theorem streamCheck_unkeyed {cfg : HwConfig} {b : Bank} {n : Nat} (unkeyed : unkeyedStop cfg b = true) :
    streamCheck cfg b n = some .unkeyed := if_pos unkeyed

theorem streamCheck_length {cfg : HwConfig} {b : Bank} {n : Nat} (keyed : unkeyedStop cfg b = false)
    (long : 512 < n ∨ cfg.bufBytes < n) : streamCheck cfg b n = some .length := by
  rw [streamCheck, keyed, if_neg Bool.false_ne_true, if_pos long]

/-- Settles O42, one case for each error that KEYSTREAM's check can answer. -/
theorem keystreamErrors : Obligations.KeystreamErrors := fun _ =>
  ⟨fun closed unkeyed =>
    exec_of_check_some (i := .keystream) (streamCheck_unkeyed (unkeyedStop_iff.mpr ⟨closed, unkeyed⟩)),
  fun keyed long =>
    exec_of_check_some (i := .keystream) (streamCheck_length (unkeyedStop_false.mpr keyed) long)⟩

/-! ## Re-keying (R256) -/

/-- KEYSCHED.1 and then KEYSTREAM of `n` bytes succeed, and what they leave in context 1 and in the first `n` bytes of BUF
is a function of the context of the key alone. -/
theorem keysched1_then_keystream {s : State} {n : Word} (wf : s.buf.wf = true) (ready : s.keyReady)
    (inState : n.toNat ≤ 512) (inBuf : n.toNat ≤ s.cfg.bufBytes) :
    ∃ s1 s2, exec .keysched1 s = .next s1 ∧ exec .keystream { s1 with curLen := n } = .next s2 ∧ s2.err = false ∧
      s2.bank1 = keystreamBank (keyschedBank s) ∧
      ∀ b, b < n.toNat → s2.buf.read b = keystreamByte (keystreamBank (keyschedBank s)).state b := by
  have streamReady : { completeOk (s.scrubKeyStores.setBank .c1 (keyschedBank s)) with curLen := n }.streamReady :=
    ⟨.inr rfl, inState, inBuf⟩
  refine ⟨_, _, exec_keyschedOf_of_ready ready .c1, exec_keystream_of_ready streamReady, rfl, rfl, fun b inside => ?_⟩
  exact (read_keystream wf _ _ b).trans (if_pos inside)

/-- Settles O43: the two states give one context to KEYSCHED.1, and with it to KEYSTREAM. -/
theorem rekeyedKeystreamRepeats : Obligations.RekeyedKeystreamRepeats := by
  intro s t n wfS wfT ready cfg len key inState inBuf
  obtain ⟨s1, s2, keyS, streamS, okS, bankS, bytesS⟩ := keysched1_then_keystream wfS ready inState inBuf
  obtain ⟨t1, t2, keyT, streamT, okT, bankT, bytesT⟩ :=
    keysched1_then_keystream wfT (keyReady_congr cfg len ready) inState (cfg ▸ inBuf)
  have same : keyschedBank s = keyschedBank t := keyschedBank_congr cfg len key
  refine ⟨s1, s2, t1, t2, keyS, streamS, keyT, streamT, okS, okT, ?_, fun b inside => ?_⟩
  · rw [bankS, bankT, same]
  · rw [bytesS b inside, bytesT b inside, same]

end Sys2Proof.Machine
end

section
/-! PROOFS. The statements of 44_block.md: P, the PHT and their inverses (R275, R276, R281, R282), the rounds from their
formulas (R277, R283), the block functions (R278 to R280, R284), the inverse pair (R287), the halves (R289), and ENCRYPT
and DECRYPT over BUF (R285, R286). -/

namespace Sys2Proof.Machine

/-! ## P and the PHT (R275, R276, R281, R282) -/

@[simp] theorem unpermute_permute (x : Block) : unpermute (permute x) = x := rfl

@[simp] theorem permute_unpermute (x : Block) : permute (unpermute x) = x := rfl

section
variable (a b : Word)

/-- The first word of a pair through the PHT and back. -/
theorem two_mul_sum_sub : 2 * (a + b) - (a + 2 * b) = a := by bv_omega

theorem sum_two_mul_sub_sum : a + 2 * b - (a + b) = b := by bv_omega

/-- The first word of a pair through the inverse PHT and back. -/
theorem two_mul_sub_add_sub : 2 * a - b + (b - a) = a := by bv_omega

theorem two_mul_sub_add_two_mul_sub : 2 * a - b + 2 * (b - a) = b := by bv_omega

end

@[simp] theorem unpht_pht (x : Block) : unpht (pht x) = x := by
  simp only [unpht, pht, two_mul_sum_sub, sum_two_mul_sub_sum]

@[simp] theorem pht_unpht (x : Block) : pht (unpht x) = x := by
  simp only [unpht, pht, two_mul_sub_add_sub, two_mul_sub_add_two_mul_sub]

/-- Settles O48: P moves words, so what its powers are is seen on the words; the PHT is undone on each pair. -/
theorem permutationAndPhtInvert : Obligations.PermutationAndPhtInvert :=
  ⟨fun x => ⟨unpermute_permute x, permute_unpermute x, rfl, unpht_pht x, pht_unpht x⟩,
    ⟨⟨1, 2, 3, 4, 5, 6, 7, 8⟩, by decide⟩, rfl⟩

/-! ## The rounds (R277, R283) -/

/-- Settles O51: the parts of the round in their order, with R10's rotations as those of bit vectors. -/
theorem encryptionRoundFormula : Obligations.EncryptionRoundFormula := by
  intro K j x _
  simp only [encRound, lanes, keyedMix, permute, pht, rotr_eq_rotateRight]
  rfl

/-- Settles O52: the inverse parts in their order, the taps of the restored words. -/
theorem decryptionRoundFormula : Obligations.DecryptionRoundFormula := by
  intro K j x _
  simp only [decRound, unpht, unpermute, unkeyedMix, unlanes, rotl_eq_rotateLeft]
  rfl

section
variable (K : Kdsb)

/-- Every part of a round is undone by its inverse part, in the opposite order (R283). -/
@[simp] theorem decRound_encRound (j : Nat) (x : Block) : decRound K j (encRound K j x) = x := by
  simp only [decRound, encRound, unpht_pht, unpermute_permute, unkeyedMix_keyedMix, unlanes_lanes]

@[simp] theorem encRound_decRound (j : Nat) (x : Block) : encRound K j (decRound K j x) = x := by
  simp only [decRound, encRound, lanes_unlanes, keyedMix_unkeyedMix, permute_unpermute, pht_unpht]

theorem encRounds_succ (n : Nat) (x : Block) : encRounds K (n + 1) x = encRound K (n + 1) (encRounds K n x) := rfl

theorem decRounds_succ (n : Nat) (x : Block) : decRounds K (n + 1) x = decRounds K n (decRound K (n + 1) x) := rfl

@[simp] theorem decRounds_encRounds (n : Nat) (x : Block) : decRounds K n (encRounds K n x) = x := by
  induction n with
  | zero => rfl
  | succ n ih => rw [encRounds_succ, decRounds_succ, decRound_encRound, ih]

@[simp] theorem encRounds_decRounds (n : Nat) (x : Block) : encRounds K n (decRounds K n x) = x := by
  induction n generalizing x with
  | zero => rfl
  | succ n ih => rw [decRounds_succ, encRounds_succ, ih, encRound_decRound]

/-- The encryption rounds as a fold in rising order. -/
theorem encRounds_eq_foldl (n : Nat) (x : Block) :
    encRounds K n x = (List.range n).foldl (fun z i => encRound K (i + 1) z) x := by
  induction n with
  | zero => rfl
  | succ n ih => rw [List.range_succ, List.foldl_append, ← ih]; rfl

/-- The decryption rounds as a fold in falling order. -/
theorem decRounds_eq_foldl (n : Nat) (x : Block) :
    decRounds K n x = (List.range n).foldl (fun z i => decRound K (n - i) z) x := by
  induction n generalizing x with
  | zero => rfl
  | succ n ih =>
    rw [decRounds_succ, ih, List.range_succ_eq_map, List.foldl_cons, List.foldl_map]
    simp only [Nat.succ_eq_add_one, Nat.add_sub_add_right, Nat.sub_zero]

end

/-! ## The block functions (R278 to R280, R284, R287) -/

/-- Settles O53: the rounds are the folds over their counters, and the whitenings add to and subtract from the named
words; the example is computed. -/
theorem blockFunctionsAreWhitenedRounds : Obligations.BlockFunctionsAreWhitenedRounds := by
  refine ⟨fun K x => ?_, fun K x => ?_, by decide +kernel⟩
  · rw [encryptBlock_eq, encRounds_eq_foldl]; rfl
  · rw [decryptBlock_eq, decRounds_eq_foldl]; rfl

@[simp] theorem decryptBlock_encryptBlock (K : Kdsb) (x : Block) : decryptBlock K (encryptBlock K x) = x := by
  rw [encryptBlock_eq, decryptBlock_eq, unwhitenOut_whitenOut, decRounds_encRounds, unwhitenIn_whitenIn]

@[simp] theorem encryptBlock_decryptBlock (K : Kdsb) (x : Block) : encryptBlock K (decryptBlock K x) = x := by
  rw [decryptBlock_eq, encryptBlock_eq, whitenIn_unwhitenIn, encRounds_decRounds, whitenOut_unwhitenOut]

/-! ## The halves (R289) -/

/-- The two halves of a block. -/
inductive Half where
  /-- The words A, B, G, H. -/
  | abgh
  /-- The words C, D, E, F. -/
  | cdef

/-- The half that P moves a half to. -/
def Half.other : Half → Half
  | .abgh => .cdef
  | .cdef => .abgh

@[simp] theorem Half.other_other (p : Half) : p.other.other = p := by cases p <;> rfl

/-- Blocks with the same words in a half, and any words in the other. -/
inductive AgreeOn : Half → Block → Block → Prop where
  | abgh (a b g h c d e f c' d' e' f' : Word) : AgreeOn .abgh ⟨a, b, c, d, e, f, g, h⟩ ⟨a, b, c', d', e', f', g, h⟩
  | cdef (c d e f a b g h a' b' g' h' : Word) : AgreeOn .cdef ⟨a, b, c, d, e, f, g, h⟩ ⟨a', b', c, d, e, f, g', h'⟩

theorem agreeOn_abgh_iff {x y : Block} :
    AgreeOn .abgh x y ↔ x.a = y.a ∧ x.b = y.b ∧ x.g = y.g ∧ x.h = y.h := by
  constructor
  · rintro ⟨⟩; exact ⟨rfl, rfl, rfl, rfl⟩
  · cases x; cases y; rintro ⟨rfl, rfl, rfl, rfl⟩; constructor

theorem agreeOn_cdef_iff {x y : Block} :
    AgreeOn .cdef x y ↔ x.c = y.c ∧ x.d = y.d ∧ x.e = y.e ∧ x.f = y.f := by
  constructor
  · rintro ⟨⟩; exact ⟨rfl, rfl, rfl, rfl⟩
  · cases x; cases y; rintro ⟨rfl, rfl, rfl, rfl⟩; constructor

namespace AgreeOn

variable {p : Half} {x y : Block} (K : Kdsb) (j : Nat)

/-! ### P moves each half to the other; every other part of a round keeps it -/

theorem permute : AgreeOn p x y → AgreeOn p.other (permute x) (permute y)
  | .abgh .. => .cdef .. | .cdef .. => .abgh ..

theorem unpermute : AgreeOn p x y → AgreeOn p.other (unpermute x) (unpermute y)
  | .abgh .. => .cdef .. | .cdef .. => .abgh ..

/-- A, G take the taps of B, H, and C, E those of D, F (R273). -/
theorem lanes : AgreeOn p x y → AgreeOn p (lanes K j x) (lanes K j y)
  | .abgh .. => .abgh .. | .cdef .. => .cdef ..

theorem unlanes : AgreeOn p x y → AgreeOn p (unlanes K j x) (unlanes K j y)
  | .abgh .. => .abgh .. | .cdef .. => .cdef ..

theorem keyedMix : AgreeOn p x y → AgreeOn p (keyedMix K j x) (keyedMix K j y)
  | .abgh .. => .abgh .. | .cdef .. => .cdef ..

theorem unkeyedMix : AgreeOn p x y → AgreeOn p (unkeyedMix K j x) (unkeyedMix K j y)
  | .abgh .. => .abgh .. | .cdef .. => .cdef ..

theorem pht : AgreeOn p x y → AgreeOn p (pht x) (pht y)
  | .abgh .. => .abgh .. | .cdef .. => .cdef ..

theorem unpht : AgreeOn p x y → AgreeOn p (unpht x) (unpht y)
  | .abgh .. => .abgh .. | .cdef .. => .cdef ..

theorem whitenIn : AgreeOn p x y → AgreeOn p (whitenIn K x) (whitenIn K y)
  | .abgh .. => .abgh .. | .cdef .. => .cdef ..

theorem unwhitenIn : AgreeOn p x y → AgreeOn p (unwhitenIn K x) (unwhitenIn K y)
  | .abgh .. => .abgh .. | .cdef .. => .cdef ..

theorem whitenOut : AgreeOn p x y → AgreeOn p (whitenOut K x) (whitenOut K y)
  | .abgh .. => .abgh .. | .cdef .. => .cdef ..

theorem unwhitenOut : AgreeOn p x y → AgreeOn p (unwhitenOut K x) (unwhitenOut K y)
  | .abgh .. => .abgh .. | .cdef .. => .cdef ..

/-! ### A round moves each half to the other, two rounds move it back -/

theorem encRound (e : AgreeOn p x y) : AgreeOn p.other (encRound K j x) (encRound K j y) :=
  ((e.lanes K j).keyedMix K j).permute.pht

theorem decRound (e : AgreeOn p x y) : AgreeOn p.other (decRound K j x) (decRound K j y) :=
  (e.unpht.unpermute.unkeyedMix K j).unlanes K j

theorem encRound_encRound (e : AgreeOn p x y) (i : Nat) :
    AgreeOn p (Machine.encRound K i (Machine.encRound K j x)) (Machine.encRound K i (Machine.encRound K j y)) :=
  p.other_other ▸ (e.encRound K j).encRound K i

theorem decRound_decRound (e : AgreeOn p x y) (i : Nat) :
    AgreeOn p (Machine.decRound K i (Machine.decRound K j x)) (Machine.decRound K i (Machine.decRound K j y)) :=
  p.other_other ▸ (e.decRound K j).decRound K i

theorem encRounds_two_mul (e : AgreeOn p x y) (n : Nat) :
    AgreeOn p (encRounds K (2 * n) x) (encRounds K (2 * n) y) := by
  induction n with
  | zero => exact e
  | succ n ih => exact ih.encRound_encRound K (2 * n + 1) (2 * n + 2)

theorem decRounds_two_mul (e : AgreeOn p x y) (n : Nat) :
    AgreeOn p (decRounds K (2 * n) x) (decRounds K (2 * n) y) := by
  induction n generalizing x y with
  | zero => exact e
  | succ n ih => exact ih (e.decRound_decRound K (2 * n + 2) (2 * n + 1))

theorem encryptBlock (e : AgreeOn p x y) : AgreeOn p (encryptBlock K x) (encryptBlock K y) := by
  rw [encryptBlock_eq, encryptBlock_eq]
  exact ((e.whitenIn K).encRounds_two_mul K 31).whitenOut K

theorem decryptBlock (e : AgreeOn p x y) : AgreeOn p (decryptBlock K x) (decryptBlock K y) := by
  rw [decryptBlock_eq, decryptBlock_eq]
  exact ((e.unwhitenOut K).decRounds_two_mul K 31).unwhitenIn K

end AgreeOn

/-- Settles O50: blocks that agree on a half still agree on it after either block function. -/
theorem blockHalvesNeverMix : Obligations.BlockHalvesNeverMix := by
  refine fun K x y => ⟨fun a b g h => ?_, fun c d e f => ?_⟩
  · have agree : AgreeOn .abgh x y := agreeOn_abgh_iff.mpr ⟨a, b, g, h⟩
    exact ⟨agreeOn_abgh_iff.mp (agree.encryptBlock K), agreeOn_abgh_iff.mp (agree.decryptBlock K)⟩
  · have agree : AgreeOn .cdef x y := agreeOn_cdef_iff.mpr ⟨c, d, e, f⟩
    exact ⟨agreeOn_cdef_iff.mp (agree.encryptBlock K), agreeOn_cdef_iff.mp (agree.decryptBlock K)⟩

/-! ## ENCRYPT and DECRYPT (R285, R286, R287) -/

theorem blockCheck_none_iff_ready {s : State} : blockCheck s.cfg s.bank0 s.curLen.toNat = none ↔ s.blockReady :=
  blockCheck_none.trans (and_congr_left' unkeyedStop_false)

section
variable {s : State}

/-- A block command that executes changes the data in BUF alone. -/
theorem blockCommand_of_ready (f : Kdsb → Block → Block) (ready : s.blockReady) :
    blockCommand f s =
      .next (completeOk (s.withBuf (mapBlocks (f s.bank0.kdsb) (s.curLen.toNat / 8) s.buf))) := by
  rw [blockCommand, blockCheck_none_iff_ready.mpr ready, runCommand_none, blockBody]

theorem exec_encrypt_of_ready (ready : s.blockReady) :
    exec .encrypt s =
      .next (completeOk (s.withBuf (mapBlocks (encryptBlock s.bank0.kdsb) (s.curLen.toNat / 8) s.buf))) :=
  blockCommand_of_ready encryptBlock ready

theorem exec_decrypt_of_ready (ready : s.blockReady) :
    exec .decrypt s =
      .next (completeOk (s.withBuf (mapBlocks (decryptBlock s.bank0.kdsb) (s.curLen.toNat / 8) s.buf))) :=
  blockCommand_of_ready decryptBlock ready

/-- What the data of a ready block command becomes: each block its image, and the bytes past the data as before. -/
theorem mapBlocks_of_ready (wf : s.buf.wf = true) (ready : s.blockReady) (f : Block → Block) :
    let m := mapBlocks f (s.curLen.toNat / 8) s.buf
    m.wf = true ∧ (∀ b, b < s.curLen.toNat / 8 → readBlock m b = f (readBlock s.buf b)) ∧
      ∀ a, 4 * s.curLen.toNat ≤ a → m.read a = s.buf.read a := by
  obtain ⟨-, align, -⟩ := ready
  refine ⟨wf_mapBlocks wf f _, fun b inside => ?_, fun a past => read_mapBlocks_past wf f _ (by omega)⟩
  rw [readBlock_mapBlocks wf, if_pos inside]

end

/-- Settles O45: BUF becomes `mapBlocks`, whose blocks are independent of one another. -/
theorem encryptReplacesEveryBlock : Obligations.EncryptReplacesEveryBlock := fun s wf ready =>
  ⟨_, exec_encrypt_of_ready ready, mapBlocks_of_ready wf ready (encryptBlock s.bank0.kdsb)⟩

/-- Settles O46, as O45 with the block decryption. -/
theorem decryptReplacesEveryBlock : Obligations.DecryptReplacesEveryBlock := fun s wf ready =>
  ⟨_, exec_decrypt_of_ready ready, mapBlocks_of_ready wf ready (decryptBlock s.bank0.kdsb)⟩

/-- Settles O49: ENCRYPT leaves KDSB_0 and the conditions of DECRYPT as they are, so DECRYPT runs over the same blocks
with the inverse function. -/
theorem decryptInvertsEncrypt : Obligations.DecryptInvertsEncrypt := by
  refine ⟨fun K x => ⟨decryptBlock_encryptBlock K x, encryptBlock_decryptBlock K x⟩, fun s wf ready => ?_⟩
  have restored := mapBlocks_mapBlocks wf (decryptBlock_encryptBlock s.bank0.kdsb) (s.curLen.toNat / 8)
  exact ⟨_, _, exec_encrypt_of_ready ready, exec_decrypt_of_ready ready,
    fun a => congrArg (Memory.read · a) restored, restored, rfl, rfl⟩

end Sys2Proof.Machine
end

section
/-! PROOFS. The statements of 60_exceptions.md: the life of a command (R310 to R315), the errors of the block commands
(R316 to R319), BUSYERR (R320), IRQ (R321), and what the host cannot see (R324). -/

namespace Sys2Proof.Machine

/-! ## The report of a command (R312, R313) -/

/-- The check of a command answers a code of R313, and never ERR_OPCODE, which is the decoder's (R315). -/
theorem bits_of_commandCheck {i : Instr} {s : State} {e : ErrCode} (h : commandCheck i s = some e) :
    e.bits = 2 ∨ e.bits = 3 ∨ e.bits = 4 := by
  have not_opcode : e ≠ .opcode := by
    rintro rfl
    cases i with
    | keysched0 | keysched1 => cases keyCheck_some h
    | encrypt | decrypt => exact blockCheck_ne_opcode h
    | keystream => exact streamCheck_ne_opcode h
    | zeroize0 | zeroize1 => cases h
  cases e with
  | opcode => exact absurd rfl not_opcode
  | align => exact .inl rfl
  | length => exact .inr (.inl rfl)
  | unkeyed => exact .inr (.inr rfl)

/-- `t` has the parameters, the registers CMD, LEN, BUSYERR and IE, the latches and the agents of `s`. -/
def commandFrame (s t : State) : Prop :=
  t.cfg = s.cfg ∧ t.cmd = s.cmd ∧ t.len = s.len ∧ t.busyerr = s.busyerr ∧ t.ie = s.ie ∧ t.latched = s.latched ∧
    t.curLen = s.curLen ∧ t.hostProg = s.hostProg ∧ t.received = s.received ∧ t.hostStopped = s.hostStopped ∧
    t.turns = s.turns ∧ t.draws = s.draws

theorem commandFrame_refl (s : State) : commandFrame s s :=
  ⟨rfl, rfl, rfl, rfl, rfl, rfl, rfl, rfl, rfl, rfl, rfl, rfl⟩

/-- The effect of a command is on the contexts, BUF and the stores, which the frame does not speak of. -/
theorem commandFrame_commandBody (i : Instr) (s : State) : commandFrame s (commandBody i s) := by
  cases i <;> exact commandFrame_refl s

/-- A completion writes ERR, ERRCODE, RI, BUSY and DONE, which the frame does not speak of. -/
theorem commandFrame.completeOk {s t : State} (h : commandFrame s t) : commandFrame s (completeOk t) := h

theorem commandFrame.completeError {s t : State} (h : commandFrame s t) (e : ErrCode) :
    commandFrame s (completeError e t) := h

/-- Settles O10, one case for a command that fails its check and one for a command that executes. -/
theorem everyCommandCompletes : Obligations.EveryCommandCompletes := by
  intro i s
  cases check : commandCheck i s with
  | some e =>
    exact ⟨_, exec_of_check_some check, rfl, rfl, rfl, .inr ⟨rfl, bits_of_commandCheck check⟩,
      (commandFrame_refl s).completeError e⟩
  | none =>
    exact ⟨_, exec_of_check_none check, rfl, rfl, rfl, .inl ⟨rfl, rfl⟩, (commandFrame_commandBody i s).completeOk⟩

theorem commandFrame_exec {i : Instr} {s t : State} (h : exec i s = .next t) : commandFrame s t := by
  obtain ⟨e, -, rfl⟩ | ⟨-, rfl⟩ := exec_cases h
  · exact (commandFrame_refl s).completeError e
  · exact (commandFrame_commandBody i s).completeOk

theorem commandFrame_completionStep {s t : State} (h : completionStep s = .next t) : commandFrame s t := by
  obtain ⟨-, -, hs⟩ | ⟨i, -, hs⟩ := completionStep_cases s <;> rw [hs] at h
  · cases h
    exact (commandFrame_refl s).completeError .opcode
  · exact commandFrame_exec h

/-- Settles O11: an error completion is `completeError`, and the other one clears ERR. -/
theorem errorCompletionIsPrecise : Obligations.ErrorCompletionIsPrecise := by
  intro i s t h err
  obtain ⟨e, -, rfl⟩ | ⟨-, rfl⟩ := exec_cases h
  · rfl
  · cases err

/-! ## The engine's turn (R310, R312, R315) -/

/-- The turn of a busy engine is its completion step, the turn used up. -/
theorem step_of_engineMoves {s : State} {ts : List Turn} (h : s.engineMoves ts) (busy : s.busy = true) :
    step s = completionStep { s with turns := ts } := by
  rw [step_engine h, engineTurn, if_pos busy]

theorem completionStep_of_decodes {s : State} {i : Instr} (h : decodeFields s.latched = .ok i) :
    completionStep s = exec i s := by
  rw [completionStep, h]

theorem completionStep_of_illegal {s : State} (h : s.latched.legal = false) :
    completionStep s = .next (completeError .opcode s) := by
  cases fields : decodeFields s.latched with
  | error e => rw [completionStep, fields]
  | ok i => exact absurd (legal_iff_decodeFields_ok.mpr ⟨i, fields⟩) (by simp [h])

/-- Settles O5. -/
theorem stepRunsTheLatchedCommand : Obligations.StepRunsTheLatchedCommand := by
  intro s i busy decodes
  refine ⟨fun ts h => ?_, fun h => ?_⟩
  · rw [step_of_engineMoves h busy]
    exact completionStep_of_decodes (s := { s with turns := ts }) decodes
  · rw [step_no_schedule h, if_pos busy, completionStep_of_decodes decodes]

/-- Settles O4: an illegal word completes with ERR_OPCODE, and no command reports code 1. -/
theorem errOpcodeExactlyForIllegalWords : Obligations.ErrOpcodeExactlyForIllegalWords := by
  intro s ts h busy
  refine ⟨fun illegal => ?_, fun legal => ?_⟩
  · rw [step_of_engineMoves h busy]
    exact completionStep_of_illegal (s := { s with turns := ts }) illegal
  · obtain ⟨i, decodes⟩ := legal_iff_decodeFields_ok.mp legal
    obtain ⟨t, hexec, -, -, -, report, -⟩ := everyCommandCompletes i { s with turns := ts }
    refine ⟨t, ((stepRunsTheLatchedCommand s i busy decodes).1 ts h).trans hexec, ?_⟩
    obtain ⟨-, code⟩ | ⟨-, code | code | code⟩ := report <;> rw [code] <;> decide

/-! ## From the acceptance to the completion (R310, R311, R44) -/

/-- A write of CMD accepts the word if the engine is idle. -/
theorem writeReg_cmd_idle {s : State} (idle : s.busy = false) (w : Word) : writeReg .cmd w s = acceptCommand w s := by
  rw [writeReg, if_neg (by simp [idle])]

/-- Settles O6: the write of CMD is `acceptCommand`. -/
theorem acceptanceOfACommandWord : Obligations.AcceptanceOfACommandWord := by
  intro s w ts rest h idle
  have accepted := writeReg_cmd_idle (s := s.afterHost ts rest) idle w
  exact (step_writeReg (r := .cmd) h).trans (congrArg _ accepted)

/-- Settles O7: the acceptance latches the fields of the word and LEN, which the later write of LEN leaves. -/
theorem writtenCommandRunsWithItsLen : Obligations.WrittenCommandRunsWithItsLen := by
  intro s i v ts rest hturns hprog running idle
  have accepted := acceptanceOfACommandWord s (encode i) _ _ ⟨hturns, running, hprog⟩ idle
  refine ⟨_, _, accepted, step_writeReg (r := .len) ⟨rfl, running, rfl⟩, rfl, rfl, rfl, ?_⟩
  refine (stepRunsTheLatchedCommand _ i rfl ?_).1 ts rfl
  exact decode_encode i

theorem run_succ_of_step {s t : State} (h : step s = .next t) (k : Nat) : core.run (k + 1) s = core.run k t := by
  have hcore : core.step s = .next t := h
  simp only [Host.Core.run, hcore]

/-- Settles O12, by induction on the schedule: an engine turn, a reset or the end of the schedule ends the command, and a
host turn leaves it running. -/
theorem runningCommandCompletes : Obligations.RunningCommandCompletes := by
  intro s busy
  induction hturns : s.turns generalizing s with
  | nil =>
    obtain ⟨t, completes, idle, done⟩ := completionStep_idle s
    have hstep : step s = .next t := by rw [step_no_schedule hturns, if_pos busy, completes]
    exact ⟨1, by simp, t, run_succ_of_step hstep 0, idle, .inl done⟩
  | cons x ts ih =>
    cases x with
    | engine =>
      obtain ⟨t, completes, idle, done⟩ := completionStep_idle { s with turns := ts }
      have hstep : step s = .next t := (step_of_engineMoves hturns busy).trans completes
      exact ⟨1, by simp, t, run_succ_of_step hstep 0, idle, .inl done⟩
    | reset => exact ⟨1, by simp, _, run_succ_of_step (step_reset hturns) 0, rfl, .inr (by simp)⟩
    | host =>
      obtain ⟨u, hu⟩ := hostTurn_of_busy (s := { s with turns := ts }) busy
      obtain ⟨k, bound, t, hrun, idle, done⟩ := ih u (hostTurn_busy hu busy) (hostTurn_turns hu)
      refine ⟨k + 1, by simpa using bound, t, ?_, idle, done.imp_right fun reset => by simpa using reset⟩
      rw [run_succ_of_step ((step_host hturns).trans hu), hrun]

/-! ## The errors of the block commands (R316 to R319) -/

section
variable {cfg : HwConfig} {b : Bank} {n : Nat}

theorem blockCheck_unkeyed (unkeyed : unkeyedStop cfg b = true) : blockCheck cfg b n = some .unkeyed := if_pos unkeyed

theorem blockCheck_align (keyed : unkeyedStop cfg b = false) (unaligned : n % 8 ≠ 0) :
    blockCheck cfg b n = some .align := by
  rw [blockCheck, keyed, if_neg Bool.false_ne_true, if_pos unaligned]

theorem blockCheck_length (keyed : unkeyedStop cfg b = false) (aligned : n % 8 = 0) (long : cfg.bufBytes / 4 < n) :
    blockCheck cfg b n = some .length := by
  rw [blockCheck, keyed, if_neg Bool.false_ne_true, if_neg (fun unaligned => unaligned aligned), if_pos long]

end

/-- Settles O47, one case for each error that the check of a block command can answer. -/
theorem blockErrorsInOrder : Obligations.BlockErrorsInOrder := by
  intro s i block
  have reports {e : ErrCode} (h : blockCheck s.cfg s.bank0 s.curLen.toNat = some e) :
      exec i s = .next (completeError e s) := by
    have check : commandCheck i s = blockCheck s.cfg s.bank0 s.curLen.toNat := by
      cases i with
      | encrypt | decrypt => rfl
      | _ => simp at block
    exact exec_of_check_some (check.trans h)
  refine ⟨fun closed unkeyed => ?_, fun keyed => ⟨fun unaligned => ?_, fun aligned long => ?_⟩⟩
  · exact reports (blockCheck_unkeyed (unkeyedStop_iff.mpr ⟨closed, unkeyed⟩))
  · exact reports (blockCheck_align (unkeyedStop_false.mpr keyed) unaligned)
  · exact reports (blockCheck_length (unkeyedStop_false.mpr keyed) aligned long)

/-! ## BUSYERR (R320) -/

/-- The access that lands on a register is the 32-bit one at its address (R80). -/
theorem busTarget_reg {cfg : HwConfig} {width addr : Nat} {r : Reg} (h : busTarget cfg width addr = .ok (.reg r)) :
    width = 32 ∧ addr = cfg.engineBase + r.offset := by
  obtain ⟨inWindow, lands⟩ := busTarget_ok h
  obtain ⟨hwidth, q, offset, hq⟩ | ⟨-, _, -, -, hq⟩ | ⟨-, _, -, -, -, hq⟩ := offsetTarget_ok lands <;> cases hq
  exact ⟨hwidth, by omega⟩

@[simp] theorem readTarget_busyerr (t : Target) (s : State) : (readTarget t s).busyerr = s.busyerr := by
  obtain ⟨d, n, h, -⟩ := readTarget_eq t s
  rw [h]

/-- A write that clears BUSYERR is one of STATUS with bit 10 set. -/
theorem writeTarget_clears_busyerr {t : Target} {v : Word} {s : State} (raised : s.busyerr = true)
    (cleared : (writeTarget t v s).busyerr = false) : t = .reg .status ∧ v.getLsbD 10 = true := by
  obtain ⟨-, -, hs⟩ | ⟨-, -, hs⟩ | ⟨-, hs⟩ | ⟨ht, hs⟩ | ⟨-, hs⟩ | ⟨_, -, -, hs⟩ | ⟨_, -, -, hs⟩ :=
    writeTarget_cases t v s <;> rw [hs] at cleared
  case inr.inr.inr.inl =>
    rw [clearStatus_busyerr, raised, Bool.true_and, Bool.not_eq_false'] at cleared
    exact ⟨ht, cleared⟩
  all_goals simp [raised] at cleared

/-- A host turn that clears BUSYERR is a 32-bit write of STATUS with bit 10 set. -/
theorem hostTurn_clears_busyerr {s t : State} (h : hostTurn s = .next t) (raised : s.busyerr = true)
    (cleared : t.busyerr = false) :
    ∃ w rest, s.hostProg = .access (.write 32 (s.cfg.engineBase + Reg.status.offset) w) :: rest ∧
      w.getLsbD 10 = true := by
  obtain rfl | ⟨rest, -, -, rfl⟩ | ⟨e, rest, -, rfl⟩ | ⟨_, _, rest, target, -, -, rfl⟩ |
    ⟨width, addr, v, rest, target, hprog, lands, rfl⟩ := hostTurn_cases h
  case inr.inr.inr.inr =>
    obtain ⟨rfl, bit⟩ := writeTarget_clears_busyerr (s := { s with hostProg := rest }) raised cleared
    obtain ⟨rfl, rfl⟩ := busTarget_reg lands
    exact ⟨v, rest, hprog, bit⟩
  all_goals simp [raised] at cleared

/-- Settles O28: of the things a step can do, a completion step and an idle engine's turn leave BUSYERR as it is. -/
theorem busyerrIsSticky : Obligations.BusyerrIsSticky := by
  intro s t hstep raised cleared
  obtain ⟨ts, -, hhost | ⟨-, hengine⟩ | ⟨-, rfl⟩ | ⟨hreset, -⟩⟩ := step_cases hstep
  · exact .inr (hostTurn_clears_busyerr (s := { s with turns := ts }) hhost raised cleared)
  · obtain ⟨-, -, -, kept, -⟩ := commandFrame_completionStep hengine
    simp [kept, raised] at cleared
  · simp [raised] at cleared
  · exact .inl ⟨ts, hreset⟩

/-! ## IRQ (R321) -/

theorem irqenWord_ie (s : State) : (irqenWord s).getLsbD 0 = s.ie := by
  cases h : s.ie <;> simp [irqenWord_eq, h]

/-- Settles O30: every completion sets DONE and leaves IE, and an acceptance clears DONE. -/
theorem irqIsEnabledDone : Obligations.IrqIsEnabledDone := by
  refine ⟨fun s => ?_, fun i s t h => ?_, fun s w => ?_⟩
  · obtain ⟨-, done, -⟩ := statusWord_bits s
    rw [irqenWord_ie, done, State.irq]
  · obtain ⟨u, hu, -, done, -, -, -, -, -, -, ie, -⟩ := everyCommandCompletes i s
    cases hu.symm.trans h
    rw [State.irq, done, ie, Bool.and_true]
  · rw [State.irq, acceptCommand_done, Bool.and_false]

/-! ## What the host cannot see (R324) -/

/-- A context without its key material: KEYED alone is left. -/
def Bank.erase (b : Bank) : Bank := ⟨kZero, kZero, b.keyed⟩

/-- The state without what the host cannot see: KDSB, State, RI and the transient stores. -/
def State.erase (s : State) : State :=
  { s with bank0 := s.bank0.erase, bank1 := s.bank1.erase, ri := 0, keyBlocks := [], chunk := [] }

/-- The host sees the same of two states exactly when they are equal without what it cannot see. -/
theorem sameVisible_iff_erase_eq {s t : State} : s.sameVisible t ↔ s.erase = t.erase := by
  constructor
  · rintro ⟨cfg, keyed0, keyed1, buf, cmd, len, busy, done, err, errcode, busyerr, ie, latched, curLen, hostProg,
      received, hostStopped, turns, draws⟩
    obtain ⟨curOp, curCtx, curRsvd⟩ := CmdFields.mk.inj latched
    simp only [State.erase, Bank.erase, *]
  · intro h
    simp only [State.erase, Bank.erase, State.mk.injEq, Bank.mk.injEq, true_and] at h
    constructor <;> simp only [h, State.latched]

/-- An outcome without what the host cannot see of the next state. -/
def eraseOutcome : Host.Outcome State Fault Refusal → Host.Outcome State Fault Refusal
  | .next s => .next s.erase
  | .fault e => .fault e
  | .refused e => .refused e

theorem sameOutcome_of_eraseOutcome_eq {o p : Host.Outcome State Fault Refusal} (h : eraseOutcome o = eraseOutcome p) :
    sameOutcome o p := by
  cases o with
  | next s =>
    cases p with
    | next t => exact sameVisible_iff_erase_eq.mpr (Host.Outcome.next.inj h)
    | fault | refused => cases h
  | fault e => cases p <;> cases h; rfl
  | refused e => cases p <;> cases h; rfl

/-- An operation that looks at what the host can see alone takes the same branch without the rest. -/
theorem ite_erase {c : Prop} [Decidable c] {x y x' y' : State} (hx : x' = x.erase) (hy : y' = y.erase) :
    (if c then x' else y') = (if c then x else y).erase := by
  rw [hx, hy, apply_ite State.erase]

theorem readReg_erase (r : Reg) (s : State) : readReg r s.erase = readReg r s := by cases r <;> rfl

section
variable (s : State)

theorem readTarget_erase (t : Target) : readTarget t s.erase = (readTarget t s).erase := by
  cases t with
  | reg r => rw [readTarget, readReg_erase]; rfl
  | bufByte a => exact ite_erase rfl rfl
  | bufWord a => exact ite_erase rfl rfl

theorem writeReg_erase (r : Reg) (v : Word) : writeReg r v s.erase = (writeReg r v s).erase := by
  cases r with
  | cmd => exact ite_erase rfl rfl
  | len | status | irqen => rfl

theorem writeTarget_erase (t : Target) (v : Word) : writeTarget t v s.erase = (writeTarget t v s).erase := by
  cases t with
  | reg r => exact writeReg_erase s r v
  | bufByte a => exact ite_erase rfl rfl
  | bufWord a => exact ite_erase rfl rfl

theorem serve_erase (a : Access) (t : Target) : a.serve t s.erase = (a.serve t s).erase := by
  cases a with
  | read => exact readTarget_erase s t
  | write _ _ v => exact writeTarget_erase s t v

theorem busError_erase (e : Fault) : busError e s.erase = eraseOutcome (busError e s) := by
  cases busy : s.busy with
  | true => rw [busError_busy e busy, busError_busy (s := s.erase) e busy]; rfl
  | false => rw [busError_idle e busy, busError_idle (s := s.erase) e busy]; rfl

theorem hostAccess_erase (a : Access) : hostAccess a s.erase = eraseOutcome (hostAccess a s) := by
  cases target : a.target s.cfg with
  | ok t => rw [hostAccess_of_lands target, hostAccess_of_lands (s := s.erase) target, serve_erase]; rfl
  | error e => rw [hostAccess_of_busError target, hostAccess_of_busError (s := s.erase) target, busError_erase]

theorem hostOperation_erase : hostOperation s.erase = eraseOutcome (hostOperation s) := by
  have same : s.erase.hostProg = s.hostProg := rfl
  rw [hostOperation, hostOperation, same]
  cases s.hostProg with
  | nil => rfl
  | cons op rest =>
    cases op with
    | access a => exact hostAccess_erase { s with hostProg := rest } a
    | wait => exact congrArg Host.Outcome.next (ite_erase rfl rfl)

/-- The host's turn does not look at what the host cannot see. -/
theorem hostTurn_erase : hostTurn s.erase = eraseOutcome (hostTurn s) := by
  have same : s.erase.hostStopped = s.hostStopped := rfl
  rw [hostTurn, hostTurn, same]
  cases s.hostStopped with
  | none => exact hostOperation_erase s
  | some e => exact busError_erase s e

end

/-- With no schedule left and the engine idle, the step is the host's turn. -/
theorem step_of_idle {s : State} (ended : s.turns = []) (idle : s.busy = false) : step s = hostTurn s := by
  rw [step_no_schedule ended, if_neg (by simp [idle])]

/-- The step of the host or of the reset does not look at what the host cannot see. -/
theorem step_erase {s : State} (h : s.hostMoves ∨ ∃ ts, s.turns = .reset :: ts) :
    step s.erase = eraseOutcome (step s) := by
  obtain (⟨ts, host⟩ | ⟨ended, idle⟩) | ⟨ts, reset⟩ := h
  · rw [step_host host, step_host (s := s.erase) host]
    exact hostTurn_erase { s with turns := ts }
  · rw [step_of_idle ended idle, step_of_idle (s := s.erase) ended idle]
    exact hostTurn_erase s
  · rw [step_reset reset, step_reset (s := s.erase) reset]
    rfl

/-- Settles O19: the steps of the two states are the step of one state, the one without what the host cannot see. -/
theorem hostCannotSeeKeyMaterial : Obligations.HostCannotSeeKeyMaterial := by
  intro s t same moves
  have moves' : t.hostMoves ∨ ∃ ts, t.turns = .reset :: ts := by
    rwa [State.hostMoves, same.turns, same.busy] at moves
  apply sameOutcome_of_eraseOutcome_eq
  rw [← step_erase moves, sameVisible_iff_erase_eq.mp same, step_erase moves']

end Sys2Proof.Machine
end

section
/-! PROOFS. The statements of 70_reset_and_hazards.md: what a reset clears (R350) and the engine after it (R351). -/

namespace Sys2Proof.Machine

/-! ## Every piece of the engine's state at its reset value (R46) -/

/-- R46 speaks of the engine, not of the agents around it (log 13). -/
theorem State.atReset.outside {s : State} (h : s.atReset) (hostProg : List HostOp) (received : List ReadData)
    (hostStopped : Option Fault) (turns : List Turn) (draws : Nat) :
    State.atReset { s with
      hostProg := hostProg, received := received, hostStopped := hostStopped, turns := turns, draws := draws } :=
  ⟨h.kdsb0, h.kdsb1, h.state0, h.state1, h.keyed, h.ri, h.keyBlocks, h.chunk, h.buf, h.regs, h.flags, h.latches⟩

theorem atReset_resetWith (cfg : HwConfig) : (State.resetWith cfg).atReset where
  kdsb0 := kRead_kZero
  kdsb1 := kRead_kZero
  state0 := kRead_kZero
  state1 := kRead_kZero
  keyed := ⟨rfl, rfl⟩
  ri := rfl
  keyBlocks _ h := (List.not_mem_nil h).elim
  chunk _ h := (List.not_mem_nil h).elim
  buf _ := rfl
  regs := ⟨rfl, rfl, by simp [statusWord, State.resetWith, Bank.zero], irqenWord_eq _⟩
  flags := ⟨rfl, rfl, rfl, rfl, rfl, rfl⟩
  latches := ⟨rfl, rfl, rfl, rfl⟩

theorem atReset_resetEngine (s : State) : (resetEngine s).atReset := (atReset_resetWith s.cfg).outside ..

/-- Settles O8: a reset turn is `resetEngine`, whatever the engine was doing. -/
theorem resetClearsTheEngine : Obligations.ResetClearsTheEngine :=
  ⟨fun _ _ h => ⟨_, step_reset h, atReset_resetEngine _⟩, atReset_resetWith⟩

/-! ## Idle and ready (R351) -/

/-- Settles O9: the flags are those of R46, and the idle engine accepts the word (R311). -/
theorem afterResetIdleAndReady : Obligations.AfterResetIdleAndReady := by
  intro cfg w ts rest s
  obtain ⟨keyed0, keyed1⟩ := (atReset_resetWith cfg).keyed
  obtain ⟨-, -, status, -⟩ := (atReset_resetWith cfg).regs
  obtain ⟨busy, done, -⟩ := (atReset_resetWith cfg).flags
  have irq : s.irq = false := by rw [State.irq, done, Bool.and_false]
  have accepted := acceptanceOfACommandWord
    { s with turns := .host :: ts, hostProg := .access (.write 32 (cfg.engineBase + 0x000) w) :: rest }
    w ts rest ⟨rfl, rfl, rfl⟩ busy
  exact ⟨busy, done, irq, keyed0, keyed1, status, _, accepted, rfl, rfl, rfl, rfl⟩

end Sys2Proof.Machine
end
